-- ==== Sys2Proof/Word.lean ====
section
/-! DEFINITION. The word types of ZNG-CORE (R7, R9, R20): bytes, 32-bit and 64-bit registers, and the size of the
one address space (R38). -/

namespace Sys2Proof

/-- R9: a byte, an unsigned 8-bit value. -/
abbrev Byte := BitVec 8

/-- A 32-bit register or command word (R20, R82). -/
abbrev Word32 := BitVec 32

/-- A 64-bit register or byte address (R20, R38). -/
abbrev Word64 := BitVec 64

/-- R38: byte addresses run from 0 to 2^64 - 1; this is the first number past them. -/
abbrev addressSpace : Nat := 18446744073709551616

end Sys2Proof
end

