-- ==== Sys2Proof/Config.lean ====
section
/-! DEFINITION. What an implementation of ZNG-CORE fixes (R5, I14 to I17), and the free values the spec leaves open
(R8 draw(), R150, R262). The opaque constants have no body: nothing can be proved of their values. -/

namespace Sys2Proof

/-- R5: the chunk width W, one of 1, 16, 32, 64. -/
inductive Width where
  | w1
  | w16
  | w32
  | w64
  deriving DecidableEq, Repr, Inhabited

/-- R5, R80: the parameters of one implementation on one platform. No step writes them (log 2). -/
structure Impl where
  /-- W -/
  width : Width
  /-- HAS_MASKED -/
  hasMasked : Bool
  /-- LANES; not observable (I15) -/
  lanes : Nat
  /-- REG_BASE, the register window's base in the host's address map (I17) -/
  regBase : Word64
  /-- Accessible (R55), as half-open address intervals [lo, hi) (log 3) -/
  accessible : List (Nat × Nat)
  deriving DecidableEq, Repr, Inhabited

/-- DESIGN CHOICE (log 2; safe). The parameters of the machine that is reset: any implementation at all. -/
opaque Config.impl : Impl

/-- DESIGN CHOICE (log 5; safe). R8, R150: the value of the k-th draw, any byte at all. -/
opaque Config.freeByte : Nat → Byte

/-- DESIGN CHOICE (log 6; safe). The value ADDR takes when an ADV sum is exactly 2^64, which no rule states. -/
opaque Config.freeAddr : Nat → Word64

end Sys2Proof
end

