-- ==== Sys2Proof/Syntax.lean ====
section
/-! DEFINITION. The commands of ZNG-CORE: one constructor per row of spec/opcode_table.json (R86), and the raw fields
of a command word (R82). A command carries no operand; every operand is read from a register (R88). -/

namespace Sys2Proof

/-- R86: the seven legal commands. -/
inductive Instr where
  /-- `nop`, 0x00000000 (R103) -/
  | nop
  /-- `expand`, 0x00000001 (R153) -/
  | expand
  /-- `expand.adv`, 0x00000011 (R153, R104) -/
  | expandAdv
  /-- `adler`, 0x00000002 (R192) -/
  | adler
  /-- `adler.adv`, 0x00000012 (R192, R104) -/
  | adlerAdv
  /-- `adler.init`, 0x00000022 (R192, R85) -/
  | adlerInit
  /-- `adler.init.adv`, 0x00000032 (R192, R85, R104) -/
  | adlerInitAdv
  deriving DecidableEq, Repr

/-- R82: the fields of format CMD32, before any check. -/
structure CmdFields where
  /-- bits 3:0 -/
  op : BitVec 4
  /-- bit 4 -/
  adv : Bool
  /-- bit 5 -/
  init : Bool
  /-- bits 31:6 -/
  rsv : BitVec 26
  deriving DecidableEq, Repr

/-- Why a command word is ILLEGAL (R83 to R87). Every reason gives the same fault cause, ILLEGAL_CMD. -/
inductive Illegal where
  /-- R82: an RSV bit is set -/
  | reservedBits
  /-- R83: OP is 3 to 15 -/
  | reservedOp
  /-- R84: NOP with ADV = 1 -/
  | advOnNop
  /-- R85: NOP or EXPAND with INIT = 1 -/
  | initNotAdler
  deriving DecidableEq, Repr

end Sys2Proof
end

