-- ==== Sys2Proof/WellFormed.lean ====
section
/-! DEFINITION. Which raw command fields spell a command (R82 to R86), and which parameter sets an implementation may
have (R5). -/

namespace Sys2Proof

/-- R82 to R86: the fields spell one of the seven legal commands: RSV is 0; OP is 0, 1 or 2; ADV is for EXPAND and
ADLER; INIT is for ADLER. -/
def CmdFields.wellFormed (f : CmdFields) : Bool :=
  f.rsv == 0 && decide (f.op.toNat < 3) && (!f.adv || f.op != 0) && (!f.init || f.op == 2)

/-- R5: LANES is positive with 4 * LANES at most W, where there are lanes at all (W = 1 has none). -/
def Impl.wellFormed (p : Impl) : Bool :=
  match p.width with
  | .w1 => true
  | .w16 => decide (0 < p.lanes) && decide (p.lanes ≤ 4)
  | .w32 => decide (0 < p.lanes) && decide (p.lanes ≤ 8)
  | .w64 => decide (0 < p.lanes) && decide (p.lanes ≤ 16)

end Sys2Proof
end

