-- ==== Sys2Proof/Decode.lean ====
section
/-! DEFINITION. Decoding a command word, total on every 32-bit word (R87), and after it the encoder (R82, R86). -/

namespace Sys2Proof

/-- R82: pull the fields out of a command word. -/
def splitWord (c : Word32) : CmdFields where
  op := c.extractLsb' 0 4
  adv := c.getLsbD 4
  init := c.getLsbD 5
  rsv := c.extractLsb' 6 26

/-- R83, R84, R85, R87: the first reason the fields are no command, if there is one. -/
def CmdFields.reject (f : CmdFields) : Option Illegal :=
  if f.rsv ≠ 0 then some .reservedBits
  else if f.op = 0 then
    if f.adv then some .advOnNop else if f.init then some .initNotAdler else none
  else if f.op = 1 then
    if f.init then some .initNotAdler else none
  else if f.op = 2 then none
  else some .reservedOp

/-- What a command word decodes to: a command, or ILLEGAL with the reason's name. -/
inductive Decoded where
  | instr (i : Instr)
  | illegal (why : Illegal)
  deriving DecidableEq, Repr

/-- R87: the command that well-formed fields spell. -/
def selectInstr (f : CmdFields) : Instr :=
  if f.op = 0 then .nop
  else if f.op = 1 then
    if f.adv then .expandAdv else .expand
  else if f.init then
    if f.adv then .adlerInitAdv else .adlerInit
  else if f.adv then .adlerAdv else .adler

/-- R87: decode, total on every 32-bit word. -/
def decode (c : Word32) : Decoded :=
  match (splitWord c).reject with
  | some why => .illegal why
  | none => .instr (selectInstr (splitWord c))

/-- R82, R86: the fields of a command. -/
def Instr.fields : Instr → CmdFields
  | .nop => ⟨0, false, false, 0⟩
  | .expand => ⟨1, false, false, 0⟩
  | .expandAdv => ⟨1, true, false, 0⟩
  | .adler => ⟨2, false, false, 0⟩
  | .adlerAdv => ⟨2, true, false, 0⟩
  | .adlerInit => ⟨2, false, true, 0⟩
  | .adlerInitAdv => ⟨2, true, true, 0⟩

/-- A command is well formed when its fields are; the type `Instr` admits no other (Laws.PerInstr). -/
def Instr.wellFormed (i : Instr) : Bool := i.fields.wellFormed

/-- R82: put fields together, RSV in the high bits. -/
def joinFields (f : CmdFields) : Word32 :=
  f.rsv ++ BitVec.ofBool f.init ++ BitVec.ofBool f.adv ++ f.op

/-- R86: the word of a command. -/
def encode (i : Instr) : Word32 := joinFields i.fields

/-- The command word that the host numbers by spec/opcode_table.json: the low `nbits` bits of `w`, zeros above. -/
def tableWord (nbits w : Nat) : Word32 := BitVec.ofNat 32 (w % 2 ^ nbits)

/-- The command the decoder reads from a word numbered as the opcode table numbers it. -/
def decodeTableWord (nbits w : Nat) : Option Instr :=
  match decode (tableWord nbits w) with
  | .instr i => some i
  | .illegal _ => none

end Sys2Proof
end

