-- ==== Sys2Proof/Machine/State.lean ====
section
/-! DEFINITION. The state of ZNG-CORE as plain data (R20 to R40), the host's pending operations (R10, R90), the reasons
a step can stop, and the state right after reset (R260). -/

namespace Sys2Proof.Machine

/-- R20, R80: the eight host-visible registers. -/
inductive Reg where
  | cmd
  | status
  | addr
  | dist
  | len
  | acc
  | fcmd
  | cfg
  deriving DecidableEq, Repr

/-- R220: what STATUS.CAUSE can hold. -/
inductive Cause where
  | none
  | illegalCmd
  | zeroLen
  | zeroDist
  | range
  | access
  deriving DecidableEq, Repr

/-- R27: what STATUS.REGIME can hold. -/
inductive Regime where
  | none
  | bcast1
  | bcast2
  | half
  | fullRep
  | wide
  deriving DecidableEq, Repr

/-- What a byte of memory or a lane of a chunk holds: a byte, or the k-th free draw (R8, R150, log 5). -/
inductive MemByte where
  | known (b : Byte)
  | drawn (k : Nat)
  deriving DecidableEq, Repr

/-- R38: data memory. `bytes` lists the bytes that are known, `drawn` the addresses whose byte is a free draw, with
the draw's number; both in one canonical form (`Memory.wf`). An address in neither reads `Memory.unlisted` (log 4). -/
structure Memory where
  bytes : List Host.Cell
  drawn : List (Nat × Nat)
  deriving DecidableEq, Repr

/-- R101: one entry of the fault history. -/
structure FaultRecord where
  cause : Cause
  word : Word32
  deriving DecidableEq, Repr

/-- R10, R61, R90, R107, R262: one operation of the host, as the block sees it. -/
inductive HostOp where
  /-- R90 `wr REG, v`: write a register by name (a 32-bit register takes v[31:0], log 11) -/
  | wr (r : Reg) (v : Word64)
  /-- R90 `rd REG`: read a register by name -/
  | rd (r : Reg)
  /-- R81: write `bytes` bytes at bus address `at_` -/
  | busWrite (at_ : Word64) (bytes : Nat) (v : Word64)
  /-- R81: read `bytes` bytes at bus address `at_` -/
  | busRead (at_ : Word64) (bytes : Nat)
  /-- R90 `mw a, b0, b1, ...`: write memory directly -/
  | mw (a : Word64) (bs : List Byte)
  /-- R107: read one byte of memory directly -/
  | mr (a : Word64)
  /-- R260: reset while the block is idle -/
  | reset
  /-- R262: reset that cuts short the command whose word `c` was being written to CMD -/
  | resetDuring (c : Word32)
  deriving DecidableEq, Repr

/-- The state of the machine. -/
structure State where
  /-- R5, R80: the implementation's parameters, CFG's home among them; fixed (log 2) -/
  impl : Impl
  /-- R21 ADDR -/
  addr : Word64
  /-- R22 DIST -/
  dist : Word64
  /-- R24 LEN -/
  len : Word64
  /-- R25 ACC -/
  acc : Word32
  /-- R26 STATUS.FAULT -/
  fault : Bool
  /-- R28 STATUS.CAUSE -/
  cause : Cause
  /-- R27 STATUS.REGIME -/
  regime : Regime
  /-- R30 FCMD -/
  fcmd : Word32
  /-- R38 data memory -/
  mem : Memory
  /-- R101: the faults taken so far, newest first; never shortened (log 9) -/
  faultLog : List FaultRecord
  /-- the model's own (log 5): how many free values have been drawn -/
  draws : Nat
  /-- the model's own (log 1): the host's operations still to come, next first -/
  host : List HostOp
  /-- the model's own (log 10): what the host's last completed read returned -/
  readData : Word64
  deriving DecidableEq, Repr

/-- Reasons the machine itself stops. The block's own faults (R220) are next states, not these. -/
inductive Fault where
  /-- Raised by the host operation `mw` whose bytes would pass address 2^64 - 1, which does not exist (R38). Safe: no
  claim about a next state can be proved of such a write (log 13). -/
  | hostAddressOutOfSpace
  deriving DecidableEq, Repr

/-- Reasons the model has no meaning for what it is asked. -/
inductive Refusal where
  /-- Raised by a dispatch arm of a command with no meaning yet; no arm does. Safe. -/
  | notModelled (mnemonic : String)
  /-- Raised by a host bus access outside the block's 64-byte window: it addresses another device, of which the spec
  says nothing (R39, R80, log 12). Safe. -/
  | outsideWindow
  deriving DecidableEq, Repr

/-- R260: the state after reset, with nothing listed in memory (log 4) and no host operation pending (log 1). -/
def State.reset : State where
  impl := Config.impl
  addr := 0
  dist := 0
  len := 0
  acc := 1
  fault := false
  cause := .none
  regime := .none
  fcmd := 0
  mem := ⟨[], []⟩
  faultLog := []
  draws := 0
  host := []
  readData := 0

end Sys2Proof.Machine
end

