-- ==== Sys2Proof/Machine/Ops.lean ====
section
/-! DEFINITION. The operations over memory and registers that every command and host access is made of: reading and
writing a byte, writing a run of bytes (R8), taking a fault (R225) and clearing it (R29), the ADV write-back (R104),
and the block's reset (R260). -/

namespace Sys2Proof

/-! ### The parameters -/

/-- R5: W in bytes. -/
def Width.bytes : Width → Nat
  | .w1 => 1
  | .w16 => 16
  | .w32 => 32
  | .w64 => 64

/-- R31: log2(W). -/
def Width.log2 : Width → BitVec 8
  | .w1 => 0
  | .w16 => 4
  | .w32 => 5
  | .w64 => 6

/-- R5: H = W/2, the half-chunk width; it has a meaning for W ≥ 16 only. -/
def Width.half (w : Width) : Nat := w.bytes / 2

/-- R55: `Accessible(a)`. -/
def Impl.isAccessible (p : Impl) (a : Nat) : Bool :=
  p.accessible.any fun r => decide (r.1 ≤ a) && decide (a < r.2)

end Sys2Proof

namespace Sys2Proof.Machine

/-! ### Sorted lists of (address, value) -/

/-- The value listed at `a`. -/
def lookupAt {α : Type} (a : Nat) : List (Nat × α) → Option α
  | [] => none
  | (k, v) :: t => if a = k then some v else lookupAt a t

/-- List `v` at `a`, in rising order of addresses. -/
def insertAt {α : Type} (a : Nat) (v : α) : List (Nat × α) → List (Nat × α)
  | [] => [(a, v)]
  | (k, w) :: t =>
    if a < k then (a, v) :: (k, w) :: t
    else if a = k then (a, v) :: t
    else (k, w) :: insertAt a v t

/-- List nothing at `a`. -/
def eraseAt {α : Type} (a : Nat) : List (Nat × α) → List (Nat × α)
  | [] => []
  | (k, v) :: t => if a = k then eraseAt a t else (k, v) :: eraseAt a t

/-- The addresses rise strictly, from `lo` on. -/
def risingFrom {α : Type} (lo : Nat) : List (Nat × α) → Bool
  | [] => true
  | (k, _) :: t => decide (lo ≤ k) && risingFrom (k + 1) t

/-! ### Memory -/

/-- DESIGN CHOICE (log 4; unsafe). What a byte that nothing has written reads as; the spec leaves it to the platform
(R260). -/
def Memory.unlisted : Byte := 0

/-- The byte a draw or a known byte stands for. -/
def MemByte.value : MemByte → Byte
  | .known b => b
  | .drawn k => Config.freeByte k

/-- R8 `Mem[a]`, telling a known byte from a draw. -/
def Memory.cell (m : Memory) (a : Nat) : MemByte :=
  match lookupAt a m.drawn with
  | some k => .drawn k
  | none => .known ((lookupAt a m.bytes).getD Memory.unlisted)

/-- R8 `MemRead(a, 1)`: the byte at `a`. -/
def Memory.read (m : Memory) (a : Nat) : Byte := (m.cell a).value

/-- R8 `MemWrite(a, 1, v)`: the byte at `a` becomes `v`; the canonical form is kept. -/
def Memory.put (m : Memory) (a : Nat) : MemByte → Memory
  | .known b =>
    { bytes := if b = Memory.unlisted then eraseAt a m.bytes else insertAt a b m.bytes
      drawn := eraseAt a m.drawn }
  | .drawn k =>
    { bytes := eraseAt a m.bytes
      drawn := insertAt a k m.drawn }

/-- R8 `MemWrite(a, n, v)`: the byte at `a + j` becomes `v j`, for j in 0 .. n - 1 in order. -/
def Memory.putRange (m : Memory) (a : Nat) (v : Nat → MemByte) : Nat → Memory
  | 0 => m
  | n + 1 => (m.putRange a v n).put (a + n) (v n)

/-- The canonical form: both lists rise strictly inside the address space, no known byte is listed that an unlisted
address would read as, and no address is in both lists. -/
def Memory.wf (m : Memory) : Bool :=
  risingFrom 0 m.bytes && risingFrom 0 m.drawn
    && m.bytes.all (fun c => decide (c.1 < addressSpace) && decide (c.2 ≠ Memory.unlisted))
    && m.drawn.all (fun c => decide (c.1 < addressSpace) && (lookupAt c.1 m.bytes).isNone)

/-- Every draw that memory holds has been drawn: the next draw is a fresh one (R150, "independent"). -/
def Memory.drawnBelow (m : Memory) (n : Nat) : Bool := m.drawn.all fun c => decide (c.2 < n)

/-! ### Outcomes -/

/-- Go on with `f` from the next state; a stop stays a stop. -/
def andThen (r : Host.Outcome State Fault Refusal) (f : State → Host.Outcome State Fault Refusal) :
    Host.Outcome State Fault Refusal :=
  match r with
  | .next s => f s
  | .fault e => .fault e
  | .refused e => .refused e

/-! ### Faults -/

/-- R225: `raise Fault(CAUSE)` during the command with word `c`; R101: the history records it (log 9). -/
def raiseFault (cause : Cause) (c : Word32) (s : State) : State :=
  { s with fault := true, cause := cause, fcmd := c, faultLog := ⟨cause, c⟩ :: s.faultLog }

/-- R29, R226: a host write of `v` to STATUS. -/
def writeStatus (v : Word32) (s : State) : State :=
  if v.getLsbD 0 then { s with fault := false, cause := .none } else s

/-! ### The ADV write-back -/

/-- R104: the last effect of a completed command with ADV = 1, `x[ADDR] <- start + count`. Where the sum is exactly
2^64, which R104 says cannot be and R221 lets pass, ADDR takes a free value (log 6). -/
def advance (start count : Nat) (s : State) : State :=
  if start + count < addressSpace then { s with addr := BitVec.ofNat 64 (start + count) }
  else { s with addr := Config.freeAddr s.draws, draws := s.draws + 1 }

/-- R104: the write-back, where ADV = 1. -/
def advanceIf (adv : Bool) (start count : Nat) (s : State) : State :=
  if adv then advance start count s else s

/-! ### Draws and reset -/

/-- R150, R262: `n` bytes from `a` on take independent draws. -/
def drawBytes (a n : Nat) (s : State) : State :=
  { s with mem := s.mem.putRange a (fun j => .drawn (s.draws + j)) n, draws := s.draws + n }

/-- R260: the block's reset. Memory is not changed; the parameters are fixed; the history is permanent (R101); the
host's list and the model's counter are no part of the block (log 15). -/
def blockReset (s : State) : State :=
  { s with addr := 0, dist := 0, len := 0, acc := 1, fault := false, cause := .none, regime := .none, fcmd := 0 }

end Sys2Proof.Machine
end

