-- ==== Sys2Proof/Machine/Flags.lean ====
section
/-! DEFINITION. The status fields and how registers pack them: STATUS (R26 to R28), CFG (R31), the accumulator's two
fields (R25, R182), and the regime of a distance (R144). -/

namespace Sys2Proof.Machine

/-- R220: the cause codes. -/
def Cause.code : Cause → BitVec 4
  | .none => 0
  | .illegalCmd => 1
  | .zeroLen => 2
  | .zeroDist => 3
  | .range => 4
  | .access => 5

/-- R27: the regime codes. -/
def Regime.code : Regime → BitVec 3
  | .none => 0
  | .bcast1 => 1
  | .bcast2 => 2
  | .half => 3
  | .fullRep => 4
  | .wide => 5

/-- R144: the regime of distance `d` at chunk width `w`. -/
def regimeOf (d : Nat) (w : Width) : Regime :=
  if w = .w1 ∨ w.bytes ≤ d then .wide
  else if d = 1 then .bcast1
  else if d = 2 then .bcast2
  else if d < w.half then .half
  else .fullRep

/-- R26: STATUS as a word. Bits 31:11 and 3:1 are reserved and read 0. -/
def statusWord (s : State) : Word32 :=
  (0 : BitVec 21) ++ s.regime.code ++ s.cause.code ++ (0 : BitVec 3) ++ BitVec.ofBool s.fault

/-- R31: CFG as a word. Bits 31:24 and 15:9 are reserved and read 0; REV is 7. -/
def cfgWord (p : Impl) : Word32 :=
  (0 : BitVec 8) ++ (7 : BitVec 8) ++ (0 : BitVec 7) ++ BitVec.ofBool p.hasMasked ++ p.width.log2

/-- R25: field s1 of an accumulator, as an integer. -/
def accS1 (a : Word32) : Nat := (a.extractLsb' 0 16).toNat

/-- R25: field s2 of an accumulator, as an integer. -/
def accS2 (a : Word32) : Nat := (a.extractLsb' 16 16).toNat

/-- R182: the accumulator `s1 | (s2 << 16)`. -/
def packAcc (s1 s2 : Nat) : Word32 := BitVec.ofNat 16 s2 ++ BitVec.ofNat 16 s1

/-- R25, R85, R187: the Adler-32 identity. -/
def accIdentity : Word32 := 1

end Sys2Proof.Machine
end

