-- ==== Sys2Proof/Machine/Operands.lean ====
section
/-! DEFINITION. The operands of the commands (R88), as unbounded integers (R221), their footprints (R56, R57), and the
checks made before any memory access, in their order (R221, R222). -/

namespace Sys2Proof.Machine

/-- R7: `ceil(a / b)`, for b > 0. -/
def ceilDiv (a b : Nat) : Nat := (a + b - 1) / b

/-- R7: `roundup(L, W) = W * ceil(L / W)`. -/
def roundup (l w : Nat) : Nat := w * ceilDiv l w

/-- EXPAND's `out`, ADLER's `src`: x[ADDR] (R88). -/
def State.start (s : State) : Nat := s.addr.toNat

/-- EXPAND's `d`: x[DIST] (R88). -/
def State.distance (s : State) : Nat := s.dist.toNat

/-- EXPAND's `L`, ADLER's `n`: x[LEN] (R88). -/
def State.count (s : State) : Nat := s.len.toNat

/-- W, in bytes. -/
def State.w (s : State) : Nat := s.impl.width.bytes

/-- R56: the number of bytes from `out` on that an EXPAND may write. -/
def State.writeSpan (s : State) : Nat := roundup s.count s.w

/-- R55: `Accessible` holds on the `n` bytes from `lo` on. -/
def rangeAccessible (p : Impl) (lo : Nat) : Nat → Bool
  | 0 => true
  | n + 1 => p.isAccessible (lo + n) && rangeAccessible p lo n

/-- R221, R222: the first check that an EXPAND fails, if any. -/
def checkExpand (s : State) : Option Cause :=
  if s.count = 0 then some .zeroLen
  else if s.distance = 0 then some .zeroDist
  else if s.start < s.distance ∨ addressSpace < s.start + s.writeSpan then some .range
  else if rangeAccessible s.impl (s.start - s.distance) (s.distance + s.writeSpan) then none
  else some .access

/-- R221, R222: the first check that an ADLER fails, if any. -/
def checkAdler (s : State) : Option Cause :=
  if s.start = 0 ∨ s.count = 0 then none
  else if addressSpace < s.start + s.count then some .range
  else if rangeAccessible s.impl s.start s.count then none
  else some .access

end Sys2Proof.Machine
end

