-- ==== Sys2Proof/Machine/Control.lean ====
section
/-! DEFINITION. NOP (R103), and the shape every checked command has: all checks first, then the whole effect or a
precise fault (R102, R224). -/

namespace Sys2Proof.Machine

/-- R102, R224, R225: run `effect` where the checks pass; else take the fault, recording the command's word (log 8). -/
def checked (i : Instr) (check : Option Cause) (effect : State → State) (s : State) :
    Host.Outcome State Fault Refusal :=
  match check with
  | some c => .next (raiseFault c (encode i) s)
  | none => .next (effect s)

/-- R103 `nop`. -/
def execNop (s : State) : Host.Outcome State Fault Refusal := .next s

end Sys2Proof.Machine
end

