-- ==== Sys2Proof/Machine/Adler.lean ====
section
/-! DEFINITION. ADLER (R192): the closed form (R184), the zero length (R186), the null source (R187), INIT (R85) and
the ADV write-back (R104). -/

namespace Sys2Proof.Machine

/-- R180: the modulus. -/
def adlerBase : Nat := 65521

/-- The sum of `f i` for i in 0 .. n - 1 (R184). -/
def sumTo (f : Nat → Nat) : Nat → Nat
  | 0 => 0
  | n + 1 => sumTo f n + f n

/-- R184: the accumulator after folding the bytes `b 0 .. b (n - 1)` into `a`. -/
def adlerFold (a : Word32) (b : Nat → Nat) (n : Nat) : Word32 :=
  packAcc ((accS1 a + sumTo b n) % adlerBase)
    ((accS2 a + n * accS1 a + sumTo (fun i => (n - i) * b i) n) % adlerBase)

/-- R192: the `i`-th byte at `src`, as an integer. -/
def bytesAt (m : Memory) (src : Nat) (i : Nat) : Nat := (m.read (src + i)).toNat

/-- R85, R192: the accumulator an ADLER starts from. -/
def startAcc (init : Bool) (s : State) : Word32 := if init then accIdentity else s.acc

/-- R184, R186, R187: the accumulator an ADLER leaves, the null source first. -/
def adlerResult (init : Bool) (s : State) : Word32 :=
  if s.start = 0 then accIdentity
  else if s.count = 0 then startAcc init s
  else adlerFold (startAcc init s) (bytesAt s.mem s.start) s.count

/-- R192: ADLER(adv, init). -/
def adlerCommand (i : Instr) (adv init : Bool) (s : State) : Host.Outcome State Fault Refusal :=
  checked i (checkAdler s) (fun s => advanceIf adv s.start s.count { s with acc := adlerResult init s }) s

/-- `adler` (R192). -/
def execAdler (s : State) : Host.Outcome State Fault Refusal := adlerCommand .adler false false s

/-- `adler.adv` (R192, R104). -/
def execAdlerAdv (s : State) : Host.Outcome State Fault Refusal := adlerCommand .adlerAdv true false s

/-- `adler.init` (R192, R85). -/
def execAdlerInit (s : State) : Host.Outcome State Fault Refusal := adlerCommand .adlerInit false true s

/-- `adler.init.adv` (R192, R85, R104). -/
def execAdlerInitAdv (s : State) : Host.Outcome State Fault Refusal := adlerCommand .adlerInitAdv true true s

end Sys2Proof.Machine
end

