-- ==== Sys2Proof/Machine/Expand.lean ====
section
/-! DEFINITION. EXPAND (R153): the run by its closed form (R146), the margin by draws (R150), the regime (R144), and
the ADV write-back (R104). -/

namespace Sys2Proof.Machine

/-- R146: memory after the run, `Mem[out + i] <- old[out - d + (i mod d)]` for i in 0 .. L - 1. -/
def writeRun (out d n : Nat) (old : Memory) : Memory :=
  old.putRange out (fun i => old.cell (out - d + i % d)) n

/-- R153: the effect of an EXPAND whose checks have passed, without the ADV write-back. -/
def expandEffect (s : State) : State :=
  let ran := { s with mem := writeRun s.start s.distance s.count s.mem }
  let drew := drawBytes (s.start + s.count) (s.writeSpan - s.count) ran
  { drew with regime := regimeOf s.distance s.impl.width }

/-- R153: EXPAND(adv). -/
def expandCommand (i : Instr) (adv : Bool) (s : State) : Host.Outcome State Fault Refusal :=
  checked i (checkExpand s) (fun s => advanceIf adv s.start s.count (expandEffect s)) s

/-- `expand` (R153). -/
def execExpand (s : State) : Host.Outcome State Fault Refusal := expandCommand .expand false s

/-- `expand.adv` (R153, R104). -/
def execExpandAdv (s : State) : Host.Outcome State Fault Refusal := expandCommand .expandAdv true s

end Sys2Proof.Machine
end

