-- ==== Sys2Proof/Machine/Dispatch.lean ====
section
/-! DEFINITION. The meaning of every command, one arm per constructor (R100). -/

namespace Sys2Proof.Machine

def exec (i : Instr) (s : State) : Host.Outcome State Fault Refusal :=
  match i with
  | .nop => Sys2Proof.Machine.execNop s
  | .expand => Sys2Proof.Machine.execExpand s
  | .expandAdv => Sys2Proof.Machine.execExpandAdv s
  | .adler => Sys2Proof.Machine.execAdler s
  | .adlerAdv => Sys2Proof.Machine.execAdlerAdv s
  | .adlerInit => Sys2Proof.Machine.execAdlerInit s
  | .adlerInitAdv => Sys2Proof.Machine.execAdlerInitAdv s

end Sys2Proof.Machine
end

