-- ==== Sys2Proof/Machine/HostAccess.lean ====
section
/-! DEFINITION. What each operation of the host does: issuing a command (R100, R101), reading and writing registers by
name (R90, R105, R106) and through the window (R80, R81), memory access (R107), and reset (R260, R262). -/

namespace Sys2Proof.Machine

/-- R100, R101: a host write of `c` to CMD. -/
def issue (c : Word32) (s : State) : Host.Outcome State Fault Refusal :=
  if s.fault then .next s
  else
    match decode c with
    | .illegal _ => .next (raiseFault .illegalCmd c s)
    | .instr i => exec i s

/-! ### Registers by name -/

/-- R105, R20: what a read of a register returns, zero-extended to 64 bits. CMD reads 0 (R32, log 7). -/
def readReg (r : Reg) (s : State) : Word64 :=
  match r with
  | .cmd => 0
  | .status => (statusWord s).setWidth 64
  | .addr => s.addr
  | .dist => s.dist
  | .len => s.len
  | .acc => s.acc.setWidth 64
  | .fcmd => s.fcmd.setWidth 64
  | .cfg => (cfgWord s.impl).setWidth 64

/-- R106: a write of `v` to a register; a 32-bit register takes v[31:0] (log 11). FCMD and CFG ignore it. -/
def writeReg (r : Reg) (v : Word64) (s : State) : Host.Outcome State Fault Refusal :=
  match r with
  | .cmd => issue (v.setWidth 32) s
  | .status => .next (writeStatus (v.setWidth 32) s)
  | .addr => .next { s with addr := v }
  | .dist => .next { s with dist := v }
  | .len => .next { s with len := v }
  | .acc => .next { s with acc := v.setWidth 32 }
  | .fcmd => .next s
  | .cfg => .next s

/-! ### The register window -/

/-- What a 32-bit slot of the window is (R80, R81). -/
inductive Slot where
  /-- a 32-bit register -/
  | word (r : Reg)
  /-- bits 31:0 of a 64-bit register -/
  | low (r : Reg)
  /-- bits 63:32 of a 64-bit register -/
  | high (r : Reg)
  | reserved
  deriving DecidableEq, Repr

/-- R80: the slot at a window offset. -/
def slotAt (offset : Nat) : Slot :=
  match offset with
  | 0x00 => .word .cmd
  | 0x04 => .word .status
  | 0x08 => .low .addr
  | 0x0C => .high .addr
  | 0x10 => .low .dist
  | 0x14 => .high .dist
  | 0x18 => .low .len
  | 0x1C => .high .len
  | 0x20 => .word .acc
  | 0x24 => .word .fcmd
  | 0x28 => .word .cfg
  | _ => .reserved

/-- R81: a 32-bit read of a slot. -/
def readSlot (slot : Slot) (s : State) : Word32 :=
  match slot with
  | .word r => (readReg r s).extractLsb' 0 32
  | .low r => (readReg r s).extractLsb' 0 32
  | .high r => (readReg r s).extractLsb' 32 32
  | .reserved => 0

/-- R81: a 32-bit write of a slot. A write of one half leaves the other half unchanged. -/
def writeSlot (slot : Slot) (v : Word32) (s : State) : Host.Outcome State Fault Refusal :=
  match slot with
  | .word r => writeReg r (v.setWidth 64) s
  | .low r => writeReg r ((readReg r s).extractLsb' 32 32 ++ v) s
  | .high r => writeReg r (v ++ (readReg r s).extractLsb' 0 32) s
  | .reserved => .next s

/-- R81: a 4-byte access at a multiple of 4 or an 8-byte access at a multiple of 8. -/
def supportedAccess (bytes offset : Nat) : Bool :=
  (bytes == 4 && offset % 4 == 0) || (bytes == 8 && offset % 8 == 0)

/-- R81: a read of `bytes` bytes at a window offset, zero-extended. -/
def readWindow (offset bytes : Nat) (s : State) : Word64 :=
  if supportedAccess bytes offset then
    if bytes = 4 then (readSlot (slotAt offset) s).setWidth 64
    else readSlot (slotAt (offset + 4)) s ++ readSlot (slotAt offset) s
  else 0

/-- R81: a write of `bytes` bytes at a window offset; a 64-bit write goes low word first. -/
def writeWindow (offset bytes : Nat) (v : Word64) (s : State) : Host.Outcome State Fault Refusal :=
  if supportedAccess bytes offset then
    if bytes = 4 then writeSlot (slotAt offset) (v.extractLsb' 0 32) s
    else
      andThen (writeSlot (slotAt offset) (v.extractLsb' 0 32) s)
        (writeSlot (slotAt (offset + 4)) (v.extractLsb' 32 32))
  else .next s

/-- R80: the window offset of a bus address, where it falls in the 64-byte window (log 12). -/
def windowOffset (p : Impl) (at_ : Word64) : Option Nat :=
  if (at_ - p.regBase).toNat < 64 then some (at_ - p.regBase).toNat else none

/-! ### Memory -/

/-- R90 `mw`: write bytes from `a` on, past the block (R107). -/
def hostWriteBytes (a : Nat) (bs : List Byte) (s : State) : State :=
  { s with mem := s.mem.putRange a (fun j => .known (bs.getD j 0)) bs.length }

/-! ### Reset during a command -/

/-- R262: the write footprint that abandoning the command with word `c` leaves unspecified: that of an EXPAND that was
accepted and whose checks passed, else none (log 14). -/
def abandonedSpan (c : Word32) (s : State) : Nat :=
  if s.fault then 0
  else
    match decode c with
    | .instr .expand => if checkExpand s = none then s.writeSpan else 0
    | .instr .expandAdv => if checkExpand s = none then s.writeSpan else 0
    | .instr .nop => 0
    | .instr .adler => 0
    | .instr .adlerAdv => 0
    | .instr .adlerInit => 0
    | .instr .adlerInitAdv => 0
    | .illegal _ => 0

/-- R262: reset while the command with word `c` runs. The host's write has no completion, so the host has no further
move (I21, log 14). -/
def resetDuringCommand (c : Word32) (s : State) : State :=
  { blockReset (drawBytes s.start (abandonedSpan c s) s) with host := [] }

/-! ### One host operation -/

/-- R61, R90: the effect of one host operation. -/
def hostStep (op : HostOp) (s : State) : Host.Outcome State Fault Refusal :=
  match op with
  | .wr r v => writeReg r v s
  | .rd r => .next { s with readData := readReg r s }
  | .busWrite a n v =>
    match windowOffset s.impl a with
    | some off => writeWindow off n v s
    | none => .refused .outsideWindow
  | .busRead a n =>
    match windowOffset s.impl a with
    | some off => .next { s with readData := readWindow off n s }
    | none => .refused .outsideWindow
  | .mw a bs =>
    if a.toNat + bs.length ≤ addressSpace then .next (hostWriteBytes a.toNat bs s)
    else .fault .hostAddressOutOfSpace
  | .mr a => .next { s with readData := (s.mem.read a.toNat).setWidth 64 }
  | .reset => .next (blockReset s)
  | .resetDuring c => .next (resetDuringCommand c s)

end Sys2Proof.Machine
end

