-- ==== Sys2Proof/Machine/Step.lean ====
section
/-! DEFINITION. One step: the host's next operation takes effect (R10, R61); with none pending the block is idle and
keeps its state (R235). And the state in which the next step runs a given command word. -/

namespace Sys2Proof.Machine

/-- R61: one step. -/
def step (s : State) : Host.Outcome State Fault Refusal :=
  match s.host with
  | [] => .next s
  | op :: rest => hostStep op { s with host := rest }

/-- `s` with the host's next operation a write of the word to CMD, and FAULT clear so that the write is executed and
not ignored (R101, log 1). -/
def State.withFetchWord (s : State) (nbits w : Nat) : State :=
  { s with
    host := .wr .cmd ((tableWord nbits w).setWidth 64) :: s.host
    fault := false
    cause := .none }

end Sys2Proof.Machine
end

