-- ==== Sys2Proof/Machine/Chunk.lean ====
section
/-! DEFINITION. The chunk primitives of the datapath (R120 to R129) and the replication tables (R140, R141). No command
word issues them (R34); the datapaths of Machine/ExpandPath.lean are written with them. A chunk of any width is a list of
lanes, so the half-chunk primitives (R125) are the same definitions at width W/2. -/

namespace Sys2Proof.Machine

/-- R50, R120: a chunk; lane j is the byte at address p + j. -/
abbrev Chunk := List MemByte

/-- What a datapath works on: memory, and how many free values have been drawn. -/
structure PathState where
  mem : Memory
  draws : Nat
  deriving DecidableEq, Repr

/-- Lane `j` of a chunk. -/
def Chunk.lane (c : Chunk) (j : Nat) : MemByte := c.getD j (.known 0)

/-- R120: `load(p)`, `w` bytes. -/
def load (w p : Nat) (m : Memory) : Chunk := (List.range w).map fun j => m.cell (p + j)

/-- R121, R128, R129: `maskedLoad(p, n)` at width `w`. With masked access lanes n .. w - 1 are draws (log 18); without it
the whole chunk is loaded, unless n = 0, which reads nothing and leaves every lane a draw (log 18). -/
def maskedLoad (masked : Bool) (w p n : Nat) (st : PathState) : Chunk × PathState :=
  if masked = true ∨ n = 0 then
    ((List.range w).map fun j => if j < n then st.mem.cell (p + j) else .drawn (st.draws + j),
      { st with draws := st.draws + w })
  else (load w p st.mem, st)

/-- R122: `store(p, C)`. -/
def store (p : Nat) (c : Chunk) (m : Memory) : Memory := m.putRange p c.lane c.length

/-- R123, R128, R129: `maskedStore(p, n, C)`. Without masked access it is done as a store, unless n = 0, which writes
nothing (log 18). -/
def maskedStore (masked : Bool) (p n : Nat) (c : Chunk) (m : Memory) : Memory :=
  if n = 0 then m
  else if masked then m.putRange p c.lane n
  else store p c m

/-- R124: `permute(C, P)`. -/
def permute (c : Chunk) (p : List Nat) : Chunk := p.map c.lane

/-- R127: the broadcast patterns B1 and B2. -/
def broadcastPattern (w d : Nat) : List Nat := (List.range w).map fun j => if d = 1 then 0 else j % 2

/-- R140, R141: a Replication Descriptor. -/
structure Descriptor where
  distance : Nat
  pattern : List Nat
  remainder : Nat
  deriving DecidableEq, Repr

/-- R140, R141: the descriptor of distance `d` at chunk width `cw`. -/
def descriptor (cw d : Nat) : Descriptor where
  distance := d
  pattern := (List.range cw).map fun j => j % d
  remainder := cw % d

/-- R140, R141: the table at chunk width `cw`, distances 3 to cw - 1 in order. -/
def replicationTable (cw : Nat) : List Descriptor := (List.range (cw - 3)).map fun i => descriptor cw (i + 3)

/-- R140: the entry of distance `d`, at index d - 3. -/
def tableEntry (cw d : Nat) : Descriptor := (replicationTable cw).getD (d - 3) ⟨0, [], 0⟩

/-- `f 0`, then `f 1`, up to `f (n - 1)` (R8, `for k in 0..n-1`). -/
def repeatSteps {σ : Type} (f : Nat → σ → σ) : Nat → σ → σ
  | 0, x => x
  | n + 1, x => f n (repeatSteps f n x)

end Sys2Proof.Machine
end

