-- ==== Sys2Proof/Machine/AdlerPath.lean ====
section
/-! DEFINITION. How the hardware reaches the result of ADLER: the serial recurrence (R181), and the block loop over
32-bit lanes with its tail (R188 to R191). `exec` does not run them; the closed form it uses is to be shown equal. A byte
run is a function from its index to the byte, as an integer. -/

namespace Sys2Proof.Machine

/-- R183. -/
def nmax : Nat := 5552

/-- R183: the largest unreduced s2 of a block of `k` bytes that starts from fields up to `field`. -/
def blockBound (field k : Nat) : Nat := field * (k + 1) + 255 * k * (k + 1) / 2

/-- R181: fold one byte. -/
def serialStep (b : Nat) (s : Nat × Nat) : Nat × Nat :=
  ((s.1 + b) % adlerBase, (s.2 + (s.1 + b) % adlerBase) % adlerBase)

/-- R181: fold the bytes `b 0 .. b (n - 1)` one at a time, in rising order. -/
def serialFold (b : Nat → Nat) (n : Nat) (s : Nat × Nat) : Nat × Nat :=
  repeatSteps (fun i s => serialStep (b i) s) n s

/-- R35: a lane vector. -/
abbrev LaneVec := List Word32

/-- R35, R188: the three lane vectors. -/
structure Lanes where
  vs1 : LaneVec
  vs2 : LaneVec
  vs3 : LaneVec
  deriving DecidableEq, Repr

/-- Lane-wise sum of two vectors, each lane modulo 2^32. -/
def addLanes (u v : LaneVec) : LaneVec := List.zipWith (fun x y => x + y) u v

/-- R188: the sum of the lanes. -/
def hsum (v : LaneVec) : Word32 := v.foldr (fun x y => x + y) 0

/-- R191: lane `q` receives the parts `f j`, j < w, that the partition sends there. -/
def scatter (lanes : Nat) (part : Nat → Nat) (f : Nat → Nat) (w : Nat) : LaneVec :=
  (List.range lanes).map fun q => BitVec.ofNat 32 (sumTo (fun j => if part j % lanes = q then f j else 0) w)

/-- R188, R191: the lanes of `v`, lane `q` sent to lane `part q`. -/
def moveLanes (lanes : Nat) (part : Nat → Nat) (v : LaneVec) : LaneVec :=
  scatter lanes part (fun q => (v.getD q 0).toNat) v.length

/-- R188, D35: the lanes at the start of a block. -/
def startLanes (lanes s1 s2 : Nat) : Lanes where
  vs1 := BitVec.ofNat 32 s1 :: List.replicate (lanes - 1) 0
  vs2 := BitVec.ofNat 32 s2 :: List.replicate (lanes - 1) 0
  vs3 := List.replicate lanes 0

/-- R191: which lane an implementation chooses, for the block that starts at index p and its chunk c: the lane of byte j
in vs1 and in vs2, the lane of vs3 to which lane q of vs1 is added, and the lane of vs2 to which lane q of vs3 is added at
the block's end. DESIGN CHOICE (log 19): any four functions, one for each place where the spec leaves the lane open, so
one byte's part, or one lane's, goes to one lane. -/
structure Partition where
  inVs1 : Nat → Nat → Nat → Nat
  inVs2 : Nat → Nat → Nat → Nat
  inVs3 : Nat → Nat → Nat → Nat
  atEnd : Nat → Nat → Nat

/-- R188: chunk `c` of the block that starts at index `p`; vs3 takes vs1 before the update. The lanes chosen in vs1, vs2
and vs3 are the partition's (R191, log 19). -/
def chunkStep (w lanes : Nat) (part : Partition) (b : Nat → Nat) (p c : Nat) (v : Lanes) : Lanes where
  vs3 := addLanes v.vs3 (moveLanes lanes (part.inVs3 p c) v.vs1)
  vs1 := addLanes v.vs1 (scatter lanes (part.inVs1 p c) (fun j => b (p + c * w + j)) w)
  vs2 := addLanes v.vs2 (scatter lanes (part.inVs2 p c) (fun j => (w - j) * b (p + c * w + j)) w)

/-- R188: one block of `k` bytes from index `p`, vs3 folded into vs2 and its fields reduced at the end. -/
def foldBlock (w lanes : Nat) (part : Partition) (b : Nat → Nat) (p k : Nat) (s : Nat × Nat) : Nat × Nat :=
  let v := repeatSteps (fun c v => chunkStep w lanes part b p c v) (k / w) (startLanes lanes s.1 s.2)
  let vs2 := addLanes v.vs2 (moveLanes lanes (part.atEnd p) (v.vs3.map fun x => BitVec.ofNat 32 w * x))
  ((hsum v.vs1).toNat % adlerBase, (hsum vs2).toNat % adlerBase)

/-- R188, D34: the length of the next block. -/
def blockLength (w rem : Nat) : Nat := min rem nmax - min rem nmax % w

/-- Where the block loop stands. -/
structure LoopState where
  p : Nat
  rem : Nat
  s : Nat × Nat
  deriving DecidableEq, Repr

/-- R188: the block loop; `fuel` bounds the number of blocks (n suffices, since a block has at least one byte). -/
def blockLoop (w lanes : Nat) (part : Partition) (b : Nat → Nat) : Nat → LoopState → LoopState
  | 0, l => l
  | fuel + 1, l =>
    if w ≤ l.rem then
      blockLoop w lanes part b fuel
        ⟨l.p + blockLength w l.rem, l.rem - blockLength w l.rem,
          foldBlock w lanes part b l.p (blockLength w l.rem) l.s⟩
    else l

/-- R188, R190: the datapath's accumulator after the bytes `b 0 .. b (n - 1)`. For W = 1 every byte is tail. -/
def adlerPath (p : Impl) (part : Partition) (a : Word32) (b : Nat → Nat) (n : Nat) : Word32 :=
  let start : LoopState := ⟨0, n, (accS1 a, accS2 a)⟩
  let l := if p.width = .w1 then start else blockLoop p.width.bytes p.lanes part b n start
  let s := serialFold (fun i => b (l.p + i)) l.rem l.s
  packAcc s.1 s.2

end Sys2Proof.Machine
end

