-- ==== Sys2Proof/Machine/ExpandPath.lean ====
section
/-! DEFINITION. How the hardware reaches the result of EXPAND: the strictly sequential copy (R145), the phase of the
replicated pattern (R142), and the reference datapath of each regime (R147 to R149). `exec` does not run them; the
closed form it uses is to be shown equal. -/

namespace Sys2Proof.Machine

/-- R145: the strictly sequential copy, each byte read as already updated. -/
def sequentialCopy (out d n : Nat) (m : Memory) : Memory :=
  repeatSteps (fun i m => m.put (out + i) (m.cell (out + i - d))) n m

/-- R142: the phase of the k-th replicated chunk. -/
def phase (cw d : Nat) : Nat → Nat
  | 0 => 0
  | k + 1 => (phase cw d k + cw % d) % d

/-- R147: the WIDE datapath. -/
def widePath (masked : Bool) (w out d n : Nat) (st : PathState) : PathState :=
  repeatSteps
    (fun k st =>
      let m := min w (n - k * w)
      let loaded := maskedLoad masked w (out - d + k * w) m st
      { loaded.2 with mem := maskedStore masked (out + k * w) m loaded.1 loaded.2.mem })
    (ceilDiv n w) st

/-- R148: the BCAST datapath. -/
def bcastPath (masked : Bool) (w out d n : Nat) (st : PathState) : PathState :=
  let loaded := maskedLoad masked w (out - d) d st
  let c := permute loaded.1 (broadcastPattern w d)
  repeatSteps
    (fun k st => { st with mem := maskedStore masked (out + k * w) (min w (n - k * w)) c st.mem })
    (ceilDiv n w) loaded.2

/-- R149: the HALF and FULLREP datapaths, at chunk width `cw` with the table's entry; the first component is the phase. -/
def replicatePath (masked : Bool) (cw out d n : Nat) (st : PathState) : PathState :=
  (repeatSteps
    (fun k (ps : Nat × PathState) =>
      let loaded := maskedLoad masked cw (out - d + ps.1) d ps.2
      let c := permute loaded.1 (tableEntry cw d).pattern
      let m := min cw (n - k * cw)
      ((ps.1 + (tableEntry cw d).remainder) % d,
        { loaded.2 with mem := maskedStore masked (out + k * cw) m c loaded.2.mem }))
    (ceilDiv n cw) (0, st)).2

/-- R144, R147 to R149: the datapath that the regime selects. -/
def expandPath (p : Impl) (out d n : Nat) (st : PathState) : PathState :=
  match regimeOf d p.width with
  | .wide => widePath p.hasMasked p.width.bytes out d n st
  | .bcast1 => bcastPath p.hasMasked p.width.bytes out d n st
  | .bcast2 => bcastPath p.hasMasked p.width.bytes out d n st
  | .half => replicatePath p.hasMasked p.width.half out d n st
  | .fullRep => replicatePath p.hasMasked p.width.bytes out d n st
  | .none => st

end Sys2Proof.Machine
end

