-- ==== Sys2Proof/Safety.lean ====
section
/-! DEFINITION. What counts as a sound state and as a command that may run: the terms in which claims are stated. -/

namespace Sys2Proof.Machine

/-- The invariant of the machine: memory is canonical (R38) and holds no draw still to come (R150, "independent"); CAUSE
is 0 exactly while FAULT = 0 (R28); while a fault is pending, the newest entry of the history is the one CAUSE and FCMD
record (R101, R225). -/
def State.Inv (s : State) : Bool :=
  s.mem.wf && s.mem.drawnBelow s.draws
    && (s.fault == (s.cause != .none))
    && (!s.fault || s.faultLog.head? == some ⟨s.cause, s.fcmd⟩)

/-- R153, R221: EXPAND completes without a fault. -/
abbrev State.expandLegal (s : State) : Prop :=
  0 < s.count ∧ 0 < s.distance ∧ s.distance ≤ s.start ∧ s.start + s.writeSpan ≤ addressSpace ∧
    rangeAccessible s.impl (s.start - s.distance) (s.distance + s.writeSpan) = true

/-- R192, R221: ADLER with a source and bytes to read completes without a fault. -/
abbrev State.adlerLegal (s : State) : Prop :=
  0 < s.start ∧ 0 < s.count ∧ s.start + s.count ≤ addressSpace ∧
    rangeAccessible s.impl s.start s.count = true

/-- Whether a command has its ADV bit set (R84, R86). -/
def advBit (i : Instr) : Bool := i.fields.adv

/-- Whether a command has its INIT bit set (R85, R86). -/
def initBit (i : Instr) : Bool := i.fields.init

/-- The command is an EXPAND (R83). -/
def isExpand (i : Instr) : Bool := i.fields.op == 1

/-- The command is an ADLER (R83). -/
def isAdler (i : Instr) : Bool := i.fields.op == 2

end Sys2Proof.Machine
end

