-- ==== Sys2Proof/Certificates/Slice0/Obligations.lean ====
section
/-! DEFINITION. The statements for the provers. Each docstring names the rules it formalises and, where a clause rests on a
choice of the model, the log entry. -/

open Sys2Proof Sys2Proof.Machine

/-! ### Encoding -/

/-- R86: the seven words as the table writes them, each with its command, both ways. -/
def Obligations.SevenWordsSpellTheirCommands : Prop :=
  (decode 0x00000000 = .instr .nop ∧ encode .nop = 0x00000000) ∧
  (decode 0x00000001 = .instr .expand ∧ encode .expand = 0x00000001) ∧
  (decode 0x00000011 = .instr .expandAdv ∧ encode .expandAdv = 0x00000011) ∧
  (decode 0x00000002 = .instr .adler ∧ encode .adler = 0x00000002) ∧
  (decode 0x00000012 = .instr .adlerAdv ∧ encode .adlerAdv = 0x00000012) ∧
  (decode 0x00000022 = .instr .adlerInit ∧ encode .adlerInit = 0x00000022) ∧
  (decode 0x00000032 = .instr .adlerInitAdv ∧ encode .adlerInitAdv = 0x00000032)

/-- R82, R86: encoding a command and decoding the word gives the command back. -/
def Obligations.EncodeThenDecodeIsIdentity : Prop :=
  ∀ i : Instr, decode (encode i) = .instr i

/-- R86: each command is read from its one word and from no other, its encoding is that word, and every word that is none
of the seven faults with ILLEGAL_CMD and no other effect (the history's entry is R101's, log 9). -/
def Obligations.EveryOtherWordIsIllegal : Prop :=
  (∀ (c : Word32) (i : Instr), decode c = .instr i ↔ c = encode i) ∧
  (∀ c : Word32,
    (decode c = .instr .nop ↔ c = 0x00000000) ∧ (decode c = .instr .expand ↔ c = 0x00000001) ∧
    (decode c = .instr .expandAdv ↔ c = 0x00000011) ∧ (decode c = .instr .adler ↔ c = 0x00000002) ∧
    (decode c = .instr .adlerAdv ↔ c = 0x00000012) ∧ (decode c = .instr .adlerInit ↔ c = 0x00000022) ∧
    (decode c = .instr .adlerInitAdv ↔ c = 0x00000032)) ∧
  ∀ (c : Word32) (s : State) (rest : List HostOp) (v : Word64),
    c ∉ [0x00000000, 0x00000001, 0x00000011, 0x00000002, 0x00000012, 0x00000022, 0x00000032] →
    v.setWidth 32 = c → s.host = .wr .cmd v :: rest → s.fault = false →
    step s = .next { s with host := rest, fault := true, cause := .illegalCmd, fcmd := c,
                            faultLog := ⟨.illegalCmd, c⟩ :: s.faultLog }

/-- R87: the decoder by its fields, and by the three masks. -/
def Obligations.DecodeFollowsFieldsAndMasks : Prop :=
  ∀ c : Word32,
    let expandOf := if c.getLsbD 4 then Instr.expandAdv else Instr.expand
    let adlerOf := if c.getLsbD 5 then (if c.getLsbD 4 then Instr.adlerInitAdv else Instr.adlerInit)
      else (if c.getLsbD 4 then Instr.adlerAdv else Instr.adler)
    let rsv := c.extractLsb' 6 26
    let op := c.extractLsb' 0 4
    (decode c = .instr .nop ↔ rsv = 0 ∧ op = 0 ∧ c.getLsbD 4 = false ∧ c.getLsbD 5 = false) ∧
    (decode c = .instr expandOf ↔ rsv = 0 ∧ op = 1 ∧ c.getLsbD 5 = false) ∧
    (decode c = .instr adlerOf ↔ rsv = 0 ∧ op = 2) ∧
    (decode c = .instr .nop ↔ c &&& 0xFFFFFFFF = 0x00000000) ∧
    (decode c = .instr expandOf ↔ c &&& 0xFFFFFFEF = 0x00000001) ∧
    (decode c = .instr adlerOf ↔ c &&& 0xFFFFFFCF = 0x00000002) ∧
    ((∃ why, decode c = .illegal why) ↔
      ¬ (c &&& 0xFFFFFFFF = 0x00000000 ∨ c &&& 0xFFFFFFEF = 0x00000001 ∨ c &&& 0xFFFFFFCF = 0x00000002))

/-! ### Steps -/

/-- R100: a step whose host operation writes a command's word to CMD, by name or through the window, with FAULT = 0, is
that command; so is a step from the state that places a word. Around `exec` a step only takes the operation off the
host's list. `withFetchWord` clears FAULT and CAUSE (log 1). -/
def Obligations.StepRunsTheDecodedCommand : Prop :=
  (∀ (s : State) (rest : List HostOp) (v : Word64) (i : Instr),
    s.host = .wr .cmd v :: rest → s.fault = false → decode (v.setWidth 32) = .instr i →
    step s = exec i { s with host := rest }) ∧
  (∀ (s : State) (rest : List HostOp) (v : Word64) (i : Instr),
    s.host = .busWrite s.impl.regBase 4 v :: rest → s.fault = false → decode (v.extractLsb' 0 32) = .instr i →
    step s = exec i { s with host := rest }) ∧
  ∀ (s : State) (nbits w : Nat) (i : Instr), decodeTableWord nbits w = some i →
    step (s.withFetchWord nbits w) = exec i { s with fault := false, cause := .none }

/-- R101: while FAULT = 1 a CMD write changes nothing, whatever the word; a host write of 1 to STATUS bit 0 makes the
next CMD write run; and every step keeps the fault history as the older part of the new one. That the history is newest
first, and that the two resets keep it, is the model's reading (log 9, DEDUCED). -/
def Obligations.PendingFaultGatesCommands : Prop :=
  (∀ (s : State) (rest : List HostOp) (v : Word64),
    (s.host = .wr .cmd v :: rest ∨ s.host = .busWrite s.impl.regBase 4 v :: rest) → s.fault = true →
    step s = .next { s with host := rest }) ∧
  (∀ (s : State) (rest : List HostOp) (u v : Word64) (i : Instr),
    s.host = .wr .status u :: .wr .cmd v :: rest → u.getLsbD 0 = true → decode (v.setWidth 32) = .instr i →
    ∃ t, step s = .next t ∧ step t = exec i { s with host := rest, fault := false, cause := .none }) ∧
  ∀ s t : State, step s = .next t → ∃ taken, t.faultLog = taken ++ s.faultLog

/-- R235: with no operation of the host the block is idle and keeps its state (log 1). -/
def Obligations.IdleBlockKeepsItsState : Prop :=
  ∀ s : State, s.host = [] → step s = .next s

/-- R102, R268: every command ends, in a next state, from every state. -/
def Obligations.EveryCommandAnswersANextState : Prop :=
  ∀ (i : Instr) (s : State), ∃ t, exec i s = .next t

/-! ### NOP -/

/-- R103: NOP is the word 0 exactly, changes no state, and no other word with OP = 0 is legal. -/
def Obligations.NopChangesNothing : Prop :=
  encode .nop = 0 ∧
  (∀ s : State, exec .nop s = .next s) ∧
  (∀ (s : State) (rest : List HostOp) (v : Word64), s.host = .wr .cmd v :: rest → v.setWidth 32 = encode .nop →
    step s = .next { s with host := rest }) ∧
  ∀ c : Word32, c.extractLsb' 0 4 = 0 → c ≠ 0 → ∃ why, decode c = .illegal why

/-! ### EXPAND -/

/-- R146, R152: a legal EXPAND completes; the run is the closed form; nothing outside [out, out + roundup(L, W)) is
written, and that is at most W - 1 bytes past the run; the registers are as the command leaves them. -/
def Obligations.ExpandWritesThePeriodicRun : Prop :=
  ∀ (i : Instr) (s : State), isExpand i = true → s.expandLegal →
    ∃ t, exec i s = .next t ∧
      (∀ k < s.count, t.mem.read (s.start + k) = s.mem.read (s.start - s.distance + k % s.distance)) ∧
      (∀ x, ¬ (s.start ≤ x ∧ x < s.start + s.writeSpan) → t.mem.read x = s.mem.read x) ∧
      (∀ x, s.start - s.distance ≤ x → x < s.start → t.mem.read x = s.mem.read x) ∧
      s.writeSpan = ceilDiv s.count s.w * s.w ∧ s.writeSpan - s.count ≤ s.w - 1 ∧
      t.regime = regimeOf s.distance s.impl.width ∧
      (advBit i = false → t.addr = s.addr) ∧
      (advBit i = true → s.start + s.count < 2 ^ 64 → t.addr.toNat = s.start + s.count) ∧
      t.dist = s.dist ∧ t.len = s.len ∧ t.acc = s.acc ∧ t.fcmd = s.fcmd ∧ t.fault = s.fault ∧ t.cause = s.cause ∧
      t.faultLog = s.faultLog ∧ t.impl = s.impl ∧ t.host = s.host ∧ t.readData = s.readData

/-- R145: up to the end of the run, memory after an EXPAND is memory after the strictly sequential copy, each byte read
as already updated. -/
def Obligations.ExpandEqualsSequentialCopy : Prop :=
  ∀ (i : Instr) (s t : State), isExpand i = true → s.expandLegal → exec i s = .next t →
    ∀ x < s.start + s.count,
      t.mem.read x = (sequentialCopy s.start s.distance s.count s.mem).read x

/-- R153, R224: what an EXPAND leaves unchanged, from every state, whether it completes or faults. -/
def Obligations.ExpandFrame : Prop :=
  ∀ (i : Instr) (s t : State), isExpand i = true → exec i s = .next t →
    t.dist = s.dist ∧ t.len = s.len ∧ t.acc = s.acc ∧ t.impl = s.impl ∧ t.host = s.host ∧ t.readData = s.readData ∧
    (advBit i = false → t.addr = s.addr) ∧
    (s.expandLegal → t.fault = s.fault ∧ t.cause = s.cause ∧ t.fcmd = s.fcmd ∧ t.faultLog = s.faultLog) ∧
    (s.expandLegal → ∀ x, ¬ (s.start ≤ x ∧ x < s.start + s.writeSpan) → t.mem.read x = s.mem.read x) ∧
    (¬ s.expandLegal → t.addr = s.addr ∧ t.regime = s.regime ∧ t.draws = s.draws ∧ ∀ x, t.mem.read x = s.mem.read x)

/-- R150: each margin byte is a draw of its own (the model's free value, log 5), and there are no margin bytes when W
divides L. -/
def Obligations.MarginBytesAreFreshDraws : Prop :=
  ∀ (i : Instr) (s t : State), isExpand i = true → s.expandLegal → exec i s = .next t →
    (∀ j, s.count + j < s.writeSpan → t.mem.read (s.start + s.count + j) = Config.freeByte (s.draws + j)) ∧
    s.draws + (s.writeSpan - s.count) ≤ t.draws ∧
    (s.w ∣ s.count → s.writeSpan = s.count)

/-- R144, R27: the regime of every distance at every chunk width, and a completed EXPAND's code in STATUS bits 10:8. -/
def Obligations.RegimeFollowsDistanceAndWidth : Prop :=
  (∀ (w : Width) (d : Nat), 1 ≤ d →
    (regimeOf d w).code =
      if w.bytes = 1 ∨ w.bytes ≤ d then 5
      else if d = 1 then 1
      else if d = 2 then 2
      else if 2 * d < w.bytes then 3
      else 4) ∧
  (∀ d, 1 ≤ d →
    (regimeOf d .w16 = .half ↔ 3 ≤ d ∧ d ≤ 7) ∧ (regimeOf d .w16 = .fullRep ↔ 8 ≤ d ∧ d ≤ 15) ∧
    (regimeOf d .w32 = .half ↔ 3 ≤ d ∧ d ≤ 15) ∧ (regimeOf d .w32 = .fullRep ↔ 16 ≤ d ∧ d ≤ 31) ∧
    (regimeOf d .w64 = .half ↔ 3 ≤ d ∧ d ≤ 31) ∧ (regimeOf d .w64 = .fullRep ↔ 32 ≤ d ∧ d ≤ 63)) ∧
  ∀ (i : Instr) (s t : State), isExpand i = true → s.expandLegal → exec i s = .next t →
    (readReg .status t).extractLsb' 8 3 = (regimeOf s.distance s.impl.width).code

/-- R154: with any other chunk width and masked capability, and the same memory and operands, an EXPAND that is legal
under both leaves the same run, ADDR and ACC, and the same bytes outside both write footprints. -/
def Obligations.ExpandIsChunkWidthIndependent : Prop :=
  ∀ (i : Instr) (s t t' : State) (w : Width) (masked : Bool), isExpand i = true →
    s.expandLegal → ({ s with impl := { s.impl with width := w, hasMasked := masked } } : State).expandLegal →
    exec i s = .next t →
    exec i { s with impl := { s.impl with width := w, hasMasked := masked } } = .next t' →
    (∀ x, s.start ≤ x → x < s.start + s.count → t.mem.read x = t'.mem.read x) ∧
    (∀ x, ¬ (s.start ≤ x ∧ x < s.start + max (roundup s.count s.w) (roundup s.count w.bytes)) →
      t.mem.read x = t'.mem.read x) ∧
    t.addr = t'.addr ∧ t.acc = t'.acc

/-- R58: issuing an EXPAND with ADV = 0 again completes and rewrites the same run with the same values. -/
def Obligations.RepeatedExpandRewritesTheSameRun : Prop :=
  ∀ s t : State, s.expandLegal → exec .expand s = .next t →
    ∃ u, exec .expand t = .next u ∧
      (∀ x < s.start + s.count, u.mem.read x = t.mem.read x) ∧
      ∀ x, s.start + s.writeSpan ≤ x → u.mem.read x = t.mem.read x

/-- R267: after an EXPAND with ADV = 1, the next EXPAND's write footprint covers the whole margin of the first, its
sources hold no byte of that margin, and the first run is kept. -/
def Obligations.NextAdvancedExpandCoversTheMargin : Prop :=
  ∀ (s t u : State) (d l : Word64), s.expandLegal → s.start + s.count < 2 ^ 64 → exec .expandAdv s = .next t →
    ({ t with dist := d, len := l } : State).expandLegal →
    exec .expandAdv { t with dist := d, len := l } = .next u →
    (∀ x, s.start + s.count ≤ x → x < s.start + s.writeSpan →
      t.start ≤ x ∧ x < t.start + ({ t with dist := d, len := l } : State).writeSpan) ∧
    (∀ x, t.start - d.toNat ≤ x → x < t.start → x < s.start + s.count) ∧
    ∀ x < s.start + s.count, u.mem.read x = t.mem.read x

/-- R155: EXPAND neither reads nor writes ACC: changing ACC before it changes ACC after it and nothing else. -/
def Obligations.ExpandIgnoresTheAccumulator : Prop :=
  ∀ (i : Instr) (s t : State) (a : Word32), isExpand i = true → exec i s = .next t →
    t.acc = s.acc ∧ exec i { s with acc := a } = .next { t with acc := a }

/-! ### EXPAND's datapaths -/

/-- R147, R148, R149: whichever regime is selected, with masked access or without, the datapath leaves the closed form's
bytes up to the end of the run, writes nothing past the write footprint, and with masked access nothing past the run. -/
def Obligations.ExpandDatapathReachesTheClosedForm : Prop :=
  ∀ (p : Impl) (m : Memory) (k out d n : Nat), 0 < n → 0 < d → d ≤ out →
    (∀ x < out + n, (expandPath p out d n ⟨m, k⟩).mem.cell x = (writeRun out d n m).cell x) ∧
    (∀ x, out + roundup n p.width.bytes ≤ x → (expandPath p out d n ⟨m, k⟩).mem.cell x = m.cell x) ∧
    (p.hasMasked = true → ∀ x, out + n ≤ x → (expandPath p out d n ⟨m, k⟩).mem.cell x = m.cell x)

/-- R142: the phase recurrence starts at 0, is k * Cw mod d, and makes each replicated chunk continue the run. -/
def Obligations.PhaseIsContinuous : Prop :=
  ∀ cw d k j : Nat, 0 < d →
    phase cw d 0 = 0 ∧ phase cw d (k + 1) = (phase cw d k + cw % d) % d ∧ phase cw d (k + 1) = (k + 1) * cw % d ∧
    (phase cw d k + j) % d = (k * cw + j) % d

/-- R140, R141: the tables' sizes and entries, at full and at half width; and a permute of d loaded bytes by an entry's
pattern is the d-byte period. -/
def Obligations.TableEntriesReplicateThePattern : Prop :=
  (∀ w : Width, (replicationTable w.bytes).length = w.bytes - 3 ∧ (replicationTable w.half).length = w.half - 3) ∧
  (∀ cw d : Nat, 3 ≤ d → d < cw →
    (tableEntry cw d).distance = d ∧ (tableEntry cw d).remainder = cw % d ∧ (tableEntry cw d).pattern.length = cw ∧
    ∀ j < cw, (tableEntry cw d).pattern[j]? = some (j % d)) ∧
  ∀ (masked : Bool) (cw d p j : Nat) (st : PathState), 3 ≤ d → d < cw → j < cw →
    (permute (maskedLoad masked cw p d st).1 (tableEntry cw d).pattern).lane j = st.mem.cell (p + j % d)

/-- R120, R121, R122, R123: a masked load's first n lanes are memory's bytes; with masked access, or where n = 0, its
result, which has w lanes, depends on no other byte of memory, and a masked store writes exactly n bytes; a load and then
a store elsewhere copies a chunk. That n = 0 does so at W > 1 without masked access is the model's reading (log 18). Lanes n .. w - 1 are the model's draws (log 18), so the two loads compared draw from the same counter. -/
def Obligations.MaskedAccessTouchesExactlyNBytes : Prop :=
  (∀ (masked : Bool) (w p n j : Nat) (st : PathState), n ≤ w → j < n →
    (maskedLoad masked w p n st).1.lane j = st.mem.cell (p + j) ∧ (maskedLoad masked w p n st).2.mem = st.mem) ∧
  (∀ (masked : Bool) (w p n k : Nat) (m m' : Memory), masked = true ∨ n = 0 → n ≤ w →
    (∀ j < n, m.cell (p + j) = m'.cell (p + j)) →
    (maskedLoad masked w p n ⟨m, k⟩).1 = (maskedLoad masked w p n ⟨m', k⟩).1 ∧
    (maskedLoad masked w p n ⟨m, k⟩).1.length = w) ∧
  (∀ (masked : Bool) (p n x : Nat) (c : Chunk) (m : Memory), masked = true ∨ n = 0 → n ≤ c.length →
    (maskedStore masked p n c m).cell x = if p ≤ x ∧ x < p + n then c.lane (x - p) else m.cell x) ∧
  ∀ (w p q x : Nat) (m : Memory),
    (store q (load w p m) m).cell x = if q ≤ x ∧ x < q + w then m.cell (p + (x - q)) else m.cell x

/-- R125: a half-width load, masked load or permute, the permute on a half-chunk by a half-width pattern, is the first
lanes of the full-width one and depends on the h bytes only; a half-width store or masked store of a half-chunk leaves in
the first h bytes what the full-width one does, and every other byte alone. -/
def Obligations.HalfChunkOpsArePrefixes : Prop :=
  ∀ (masked : Bool) (w h p n : Nat) (st : PathState) (c : Chunk) (pat : List Nat), h ≤ w → n ≤ h →
    load h p st.mem = (load w p st.mem).take h ∧
    (maskedLoad masked h p n st).1 = ((maskedLoad masked w p n st).1).take h ∧
    (∀ m : Memory, (∀ j < h, st.mem.cell (p + j) = m.cell (p + j)) →
      load h p st.mem = load h p m ∧
      (maskedLoad masked h p n st).1 = (maskedLoad masked h p n { st with mem := m }).1) ∧
    (∀ x, p ≤ x → x < p + h →
      (store p (c.take h) st.mem).cell x = (store p c st.mem).cell x ∧
      (maskedStore masked p n (c.take h) st.mem).cell x = (maskedStore masked p n c st.mem).cell x) ∧
    (∀ x, ¬ (p ≤ x ∧ x < p + h) →
      (store p (c.take h) st.mem).cell x = st.mem.cell x ∧
      (maskedStore masked p n (c.take h) st.mem).cell x = st.mem.cell x) ∧
    permute c (pat.take h) = (permute c pat).take h ∧
    ((∀ q ∈ pat.take h, q < h) → permute (c.take h) (pat.take h) = (permute c pat).take h)

/-- R129: at W = 1 a load and a store move one byte; a masked load and a masked store of one byte are they, and of none do
nothing, whatever HAS_MASKED (an unread lane is a draw, log 18); permute by [0] is the identity; and the datapaths are the
byte-by-byte copy and the serial recurrence. -/
def Obligations.ScalarWidthIsTheScalarFallback : Prop :=
  (∀ (masked : Bool) (p k : Nat) (m m' : Memory) (b : MemByte),
    load 1 p m = [m.cell p] ∧ store p [b] m = m.put p b ∧
    maskedLoad masked 1 p 1 ⟨m, k⟩ = (load 1 p m, (maskedLoad masked 1 p 1 ⟨m, k⟩).2) ∧
    maskedStore masked p 1 [b] m = store p [b] m ∧
    (maskedLoad masked 1 p 0 ⟨m, k⟩).1 = (maskedLoad masked 1 p 0 ⟨m', k⟩).1 ∧
    (maskedLoad masked 1 p 0 ⟨m, k⟩).2.mem = m ∧ maskedStore masked p 0 [b] m = m ∧
    permute [b] [0] = [b]) ∧
  ∀ p : Impl, p.width = .w1 →
    (∀ (out d n : Nat) (st : PathState), 0 < d → d ≤ out →
      (expandPath p out d n st).mem = sequentialCopy out d n st.mem) ∧
    ∀ (part : Partition) (a : Word32) (b : Nat → Nat) (n : Nat),
      adlerPath p part a b n =
        packAcc (serialFold b n (accS1 a, accS2 a)).1 (serialFold b n (accS1 a, accS2 a)).2

/-! ### ADLER -/

/-- R184: an ADLER that has a source and bytes to read, and is legal, completes; its ACC is the closed form, from ACC or
from 1 with INIT; nothing else changes but ADDR with ADV. -/
def Obligations.AdlerFoldsTheClosedForm : Prop :=
  ∀ (i : Instr) (s : State), isAdler i = true → s.adlerLegal →
    let a : Word32 := if initBit i then 1 else s.acc
    let b : Nat → Nat := fun k => (s.mem.read (s.start + k)).toNat
    let n := s.count
    ∃ t, exec i s = .next t ∧
      t.acc = packAcc (((a.extractLsb' 0 16).toNat + sumTo b n) % 65521)
        (((a.extractLsb' 16 16).toNat + n * (a.extractLsb' 0 16).toNat + sumTo (fun k => (n - k) * b k) n) % 65521) ∧
      (advBit i = false → t.addr = s.addr) ∧
      (advBit i = true → s.start + n < 2 ^ 64 → t.addr.toNat = s.start + n) ∧
      t.dist = s.dist ∧ t.len = s.len ∧ t.fault = s.fault ∧ t.cause = s.cause ∧ t.regime = s.regime ∧
      t.fcmd = s.fcmd ∧ t.faultLog = s.faultLog ∧ t.impl = s.impl ∧ t.host = s.host ∧ t.readData = s.readData ∧
      ∀ x, t.mem.read x = s.mem.read x

/-- R187: with src = 0, for any n and any accumulator, ACC becomes 1 and ADDR becomes LEN with ADV; memory plays no
part, and the rule comes before that of zero length. -/
def Obligations.NullSourceGivesTheIdentity : Prop :=
  ∀ (i : Instr) (s : State) (m : Memory), isAdler i = true → s.addr = 0 →
    exec i { s with mem := m } =
      .next { s with mem := m, acc := 0x00000001, addr := if advBit i then s.len else s.addr }

/-- R186: with src ≠ 0 and n = 0 the accumulator stays as it is, canonical or not, or is 1 with INIT; memory plays no
part, and ADDR stays. -/
def Obligations.ZeroLengthKeepsTheAccumulator : Prop :=
  ∀ (i : Instr) (s : State) (m : Memory), isAdler i = true → s.addr ≠ 0 → s.len = 0 →
    exec i { s with mem := m } =
      .next { s with mem := m, acc := if initBit i then 0x00000001 else s.acc }

/-- R192, R224: what an ADLER leaves unchanged, from every state, whether it completes or faults. -/
def Obligations.AdlerFrame : Prop :=
  ∀ (i : Instr) (s t : State), isAdler i = true → exec i s = .next t →
    (∀ x, t.mem.read x = s.mem.read x) ∧ t.dist = s.dist ∧ t.len = s.len ∧ t.regime = s.regime ∧ t.impl = s.impl ∧
    t.host = s.host ∧ t.readData = s.readData ∧
    (advBit i = false → t.addr = s.addr) ∧
    (t.faultLog = s.faultLog → t.fault = s.fault ∧ t.cause = s.cause ∧ t.fcmd = s.fcmd) ∧
    (t.faultLog ≠ s.faultLog → t.acc = s.acc ∧ t.addr = s.addr)

/-- R180, R185: every ADLER that folds at least one byte, or has the null source, leaves both fields below 65521, from
any ACC. -/
def Obligations.AdlerLeavesCanonicalFields : Prop :=
  ∀ (i : Instr) (s t : State), isAdler i = true → (s.start = 0 ∨ s.adlerLegal) → exec i s = .next t →
    accS1 t.acc < 65521 ∧ accS2 t.acc < 65521

/-- R181: an ADLER's accumulator is the serial recurrence over the bytes of its range in rising order. The recurrence's
two lines are R181's own, which marks them "from general knowledge, not in source". -/
def Obligations.AdlerEqualsTheSerialRecurrence : Prop :=
  (∀ (b : Nat → Nat) (n s1 s2 : Nat),
    serialFold b 0 (s1, s2) = (s1, s2) ∧
    serialFold b (n + 1) (s1, s2) =
      (let s := serialFold b n (s1, s2)
       ((s.1 + b n) % 65521, (s.2 + (s.1 + b n) % 65521) % 65521))) ∧
  ∀ (i : Instr) (s t : State), isAdler i = true → s.adlerLegal → exec i s = .next t →
    let a : Word32 := if initBit i then 1 else s.acc
    let r := serialFold (fun k => (s.mem.read (s.start + k)).toNat) s.count (accS1 a, accS2 a)
    accS1 t.acc = r.1 ∧ accS2 t.acc = r.2

/-- R193: folding the n1 bytes at src and then the n2 bytes after them gives the ACC of folding all n1 + n2 at once, from
every ACC and for every split, by every ADLER form (INIT, if any, on the first part and on the whole). A part may be
empty: where the second is, its source is any address but the null source, so the first may end at 2^64. -/
def Obligations.AdlerIsAdditive : Prop :=
  ∀ (i j k : Instr) (s : State) (n1 n2 src2 : Word64), isAdler i = true → isAdler j = true → isAdler k = true →
    initBit j = false → initBit k = initBit i →
    0 < s.start → s.start + n1.toNat + n2.toNat ≤ 2 ^ 64 →
    rangeAccessible s.impl s.start (n1.toNat + n2.toNat) = true →
    src2 ≠ 0 → (n2 ≠ 0 → src2.toNat = s.start + n1.toNat) →
    ∃ t u v, exec i { s with len := n1 } = .next t ∧
      exec j { t with addr := src2, len := n2 } = .next u ∧
      exec k { s with len := n1 + n2 } = .next v ∧
      u.acc = v.acc ∧ u.faultLog = s.faultLog ∧ v.faultLog = s.faultLog

/-- R194: ACC after an ADLER is the same under every parameter set that makes the range accessible, and the datapath's
result is the same for every W, HAS_MASKED, LANES and lane partition (log 19). -/
def Obligations.AdlerIsChunkWidthIndependent : Prop :=
  (∀ (i : Instr) (s t t' : State) (p : Impl), isAdler i = true → s.adlerLegal →
    ({ s with impl := p } : State).adlerLegal → exec i s = .next t → exec i { s with impl := p } = .next t' →
    t.acc = t'.acc ∧ t.addr = t'.addr) ∧
  ∀ (p p' : Impl) (part part' : Partition) (a : Word32) (b : Nat → Nat) (n : Nat),
    p.wellFormed = true → p'.wellFormed = true → (∀ k < n, b k ≤ 255) → 1 ≤ n →
    adlerPath p part a b n = adlerPath p' part' a b n

/-- R188, R190, R191: the block loop over 32-bit lanes with its serial tail computes the closed form, for every chunk
width, lane count and lane partition, and from every ACC. What a lane partition is, is the model's choice (log 19). -/
def Obligations.AdlerDatapathReachesTheClosedForm : Prop :=
  ∀ (p : Impl) (part : Partition) (a : Word32) (b : Nat → Nat) (n : Nat),
    p.wellFormed = true → (∀ k < n, b k ≤ 255) → 1 ≤ n →
    adlerPath p part a b n = adlerFold a b n

/-- R183: 5552 is the largest block for which the bound on the unreduced s2 stays below 2^32, from fields up to 65535 and
from canonical ones; and the bound is one. -/
def Obligations.NmaxIsTheLargestSafeBlock : Prop :=
  nmax = 5552 ∧
  (∀ k, blockBound 65535 k ≤ 2 ^ 32 - 1 ↔ k ≤ nmax) ∧
  (∀ k, blockBound 65520 k ≤ 2 ^ 32 - 1 ↔ k ≤ nmax) ∧
  blockBound 65535 5552 = 4294773495 ∧ blockBound 65535 5553 = 4296255045 ∧
  blockBound 65520 5552 = 4294690200 ∧ blockBound 65520 5553 = 4296171735 ∧
  ∀ (b : Nat → Nat) (field s1 s2 k : Nat), s1 ≤ field → s2 ≤ field → (∀ j < k, b j ≤ 255) →
    s2 + k * s1 + sumTo (fun j => (k - j) * b j) k ≤ blockBound field k

/-- R85: INIT on NOP or EXPAND, or on a reserved OP, faults with ILLEGAL_CMD; an ADLER with INIT = 1 whose checks pass computes as the one without it does
from ACC = 1. -/
def Obligations.InitStartsFromTheIdentity : Prop :=
  (∀ (c : Word32) (s : State), c.getLsbD 5 = true → c.extractLsb' 0 4 ≠ 2 → s.fault = false →
    issue c s = .next { s with fault := true, cause := .illegalCmd, fcmd := c,
                               faultLog := ⟨.illegalCmd, c⟩ :: s.faultLog }) ∧
  ∀ s : State, (s.start = 0 ∨ s.count = 0 ∨ s.adlerLegal) →
    exec .adlerInit s = exec .adler { s with acc := 0x00000001 } ∧
    exec .adlerInitAdv s = exec .adlerAdv { s with acc := 0x00000001 }

/-- R22: ADLER and NOP ignore DIST: changing DIST before one changes DIST after it and nothing else. -/
def Obligations.AdlerAndNopIgnoreDist : Prop :=
  ∀ (i : Instr) (s t : State) (d : Word64), isExpand i = false → exec i s = .next t →
    t.dist = s.dist ∧ exec i { s with dist := d } = .next { t with dist := d }

/-! ### Faults -/

/-- R221, R222: each command's checks in their order, each clause the first that fails; a command that passes records
no fault. The word recorded is the command's own (log 8). -/
def Obligations.FirstFailingCheckIsReported : Prop :=
  let taken := fun (c : Cause) (w : Word32) (s : State) =>
    ({ s with fault := true, cause := c, fcmd := w, faultLog := ⟨c, w⟩ :: s.faultLog } : State)
  (∀ (c : Word32) (why : Illegal) (s : State), s.fault = false → decode c = .illegal why →
    issue c s = .next (taken .illegalCmd c s)) ∧
  (∀ (c : Word32) (s : State), s.fault = true → issue c s = .next s) ∧
  (∀ s : State, s.fault = false → issue (encode .nop) s = .next s) ∧
  (∀ (i : Instr) (s : State), isExpand i = true → s.fault = false →
    (s.len = 0 → issue (encode i) s = .next (taken .zeroLen (encode i) s)) ∧
    (s.len ≠ 0 → s.dist = 0 → issue (encode i) s = .next (taken .zeroDist (encode i) s)) ∧
    (s.len ≠ 0 → s.dist ≠ 0 →
      (s.start < s.distance ∨ 2 ^ 64 < s.start + roundup s.count s.w) →
      issue (encode i) s = .next (taken .range (encode i) s)) ∧
    (s.len ≠ 0 → s.dist ≠ 0 → ¬ (s.start < s.distance ∨ 2 ^ 64 < s.start + roundup s.count s.w) →
      (∃ a, s.start - s.distance ≤ a ∧ a < s.start + roundup s.count s.w ∧ s.impl.isAccessible a = false) →
      issue (encode i) s = .next (taken .access (encode i) s)) ∧
    (s.len ≠ 0 → s.dist ≠ 0 → ¬ (s.start < s.distance ∨ 2 ^ 64 < s.start + roundup s.count s.w) →
      (∀ a, s.start - s.distance ≤ a → a < s.start + roundup s.count s.w → s.impl.isAccessible a = true) →
      ∃ t, issue (encode i) s = .next t ∧ t.fault = false ∧ t.faultLog = s.faultLog)) ∧
  ∀ (i : Instr) (s : State), isAdler i = true → s.fault = false →
    ((s.addr = 0 ∨ s.len = 0) → ∃ t, issue (encode i) s = .next t ∧ t.fault = false ∧ t.faultLog = s.faultLog) ∧
    (s.addr ≠ 0 → s.len ≠ 0 → 2 ^ 64 < s.start + s.count →
      issue (encode i) s = .next (taken .range (encode i) s)) ∧
    (s.addr ≠ 0 → s.len ≠ 0 → s.start + s.count ≤ 2 ^ 64 →
      (∃ a, s.start ≤ a ∧ a < s.start + s.count ∧ s.impl.isAccessible a = false) →
      issue (encode i) s = .next (taken .access (encode i) s)) ∧
    (s.addr ≠ 0 → s.len ≠ 0 → s.start + s.count ≤ 2 ^ 64 →
      (∀ a, s.start ≤ a → a < s.start + s.count → s.impl.isAccessible a = true) →
      ∃ t, issue (encode i) s = .next t ∧ t.fault = false ∧ t.faultLog = s.faultLog)

/-- R224, R225: whenever a CMD write takes a fault, FAULT is 1, CAUSE is a cause, FCMD is the word written, the history
has the one new entry (log 9), and nothing else has changed. -/
def Obligations.FaultsArePreciseAndRecordTheWord : Prop :=
  ∀ (c : Word32) (s t : State), issue c s = .next t → t.faultLog ≠ s.faultLog →
    s.fault = false ∧ t.cause ≠ .none ∧
    t = { s with fault := true, cause := t.cause, fcmd := c, faultLog := ⟨t.cause, c⟩ :: s.faultLog }

/-- R29: a host write of v to STATUS clears FAULT and CAUSE where v[0] = 1, and changes nothing else or nothing. -/
def Obligations.WritingOneToStatusClearsTheFault : Prop :=
  ∀ (s : State) (rest : List HostOp) (v : Word64), s.host = .wr .status v :: rest →
    (v.getLsbD 0 = true → step s = .next { s with host := rest, fault := false, cause := .none }) ∧
    (v.getLsbD 0 = false → step s = .next { s with host := rest })

/-- R26: only a fault sets FAULT, only a completed EXPAND writes REGIME, and ADLER and NOP that take no fault write no
STATUS field: over all commands. -/
def Obligations.OnlyFaultsSetFaultAndOnlyExpandSetsRegime : Prop :=
  ∀ (i : Instr) (s t : State), exec i s = .next t →
    (t.fault ≠ s.fault ∨ t.cause ≠ s.cause ∨ t.fcmd ≠ s.fcmd →
      t.faultLog = ⟨t.cause, t.fcmd⟩ :: s.faultLog ∧ t.fault = true) ∧
    (t.regime ≠ s.regime → isExpand i = true ∧ s.expandLegal ∧ t.faultLog = s.faultLog) ∧
    (isExpand i = false → t.faultLog = s.faultLog →
      t.fault = s.fault ∧ t.cause = s.cause ∧ t.regime = s.regime)

/-- R21, R84, R104: over all commands, ADDR changes only by a command with ADV = 1 that took no fault, and is then the
sum where it is below 2^64. -/
def Obligations.OnlyCompletedAdvMovesAddr : Prop :=
  ∀ (i : Instr) (s t : State), exec i s = .next t →
    (t.addr ≠ s.addr → advBit i = true ∧ t.faultLog = s.faultLog) ∧
    (advBit i = true → t.faultLog = s.faultLog → s.start + s.count < 2 ^ 64 → t.addr = s.addr + s.len)

/-! ### Registers and the window -/

/-- R260: every register after reset, at State.reset and after the host's reset operation, which changes no memory byte
and no parameter. That the operation also keeps the fault history (log 9, DEDUCED) and the rest of the host's list
(log 15, DESIGN CHOICE) is the model's choice; R260 says neither. -/
def Obligations.ResetLeavesTheSpecValues : Prop :=
  (readReg .cmd State.reset = 0 ∧ readReg .status State.reset = 0 ∧ State.reset.fault = false ∧
    State.reset.cause = .none ∧ State.reset.regime = .none ∧ State.reset.addr = 0 ∧ State.reset.dist = 0 ∧
    State.reset.len = 0 ∧ State.reset.acc = 0x00000001 ∧ State.reset.fcmd = 0 ∧
    readReg .cfg State.reset = (cfgWord Config.impl).setWidth 64 ∧
    exec .expand State.reset = .next (raiseFault .zeroLen 0x00000001 State.reset)) ∧
  ∀ (s : State) (rest : List HostOp), s.host = .reset :: rest →
    ∃ t, step s = .next t ∧ readReg .cmd t = 0 ∧ readReg .status t = 0 ∧ t.addr = 0 ∧ t.dist = 0 ∧ t.len = 0 ∧
      t.acc = 0x00000001 ∧ t.fcmd = 0 ∧ readReg .cfg t = readReg .cfg s ∧ t.mem = s.mem ∧ t.impl = s.impl ∧
      t.faultLog = s.faultLog ∧ t.host = rest

/-- R26, R27, R28, R220: what a read of STATUS returns, field by field; the reserved bits read 0; and the code of every
cause and every regime. -/
def Obligations.StatusReadsItsFields : Prop :=
  (Cause.code .none = 0 ∧ Cause.code .illegalCmd = 1 ∧ Cause.code .zeroLen = 2 ∧ Cause.code .zeroDist = 3 ∧
    Cause.code .range = 4 ∧ Cause.code .access = 5) ∧
  (Regime.code .none = 0 ∧ Regime.code .bcast1 = 1 ∧ Regime.code .bcast2 = 2 ∧ Regime.code .half = 3 ∧
    Regime.code .fullRep = 4 ∧ Regime.code .wide = 5) ∧
  ∀ s : State,
    (readReg .status s).getLsbD 0 = s.fault ∧ (readReg .status s).extractLsb' 1 3 = 0 ∧
    (readReg .status s).extractLsb' 4 4 = s.cause.code ∧ (readReg .status s).extractLsb' 8 3 = s.regime.code ∧
    (readReg .status s).extractLsb' 11 53 = 0 ∧ s.cause.code.toNat ≤ 5 ∧ s.regime.code.toNat ≤ 5

/-- R31: what a read of CFG returns, field by field; a host write to CFG is ignored; and CFG is a constant. -/
def Obligations.CfgReportsTheParameters : Prop :=
  (∀ s : State,
    2 ^ ((readReg .cfg s).extractLsb' 0 8).toNat = s.impl.width.bytes ∧
    (readReg .cfg s).getLsbD 8 = s.impl.hasMasked ∧ (readReg .cfg s).extractLsb' 9 7 = 0 ∧
    (readReg .cfg s).extractLsb' 16 8 = 7 ∧ (readReg .cfg s).extractLsb' 24 8 = 0 ∧
    (readReg .cfg s).extractLsb' 32 32 = 0) ∧
  (∀ (s : State) (rest : List HostOp) (v : Word64), s.host = .wr .cfg v :: rest →
    step s = .next { s with host := rest }) ∧
  ∀ s t : State, step s = .next t → readReg .cfg t = readReg .cfg s

/-- R106, R227: a host write to ADDR, DIST, LEN or ACC sets it, and one to FCMD or CFG is ignored, whether or not a fault
is pending. That a 32-bit register takes the low 32 bits is the model's reading (log 11). -/
def Obligations.RegisterWritesAreNotGated : Prop :=
  ∀ (s : State) (rest : List HostOp) (v : Word64),
    (s.host = .wr .addr v :: rest → step s = .next { s with host := rest, addr := v }) ∧
    (s.host = .wr .dist v :: rest → step s = .next { s with host := rest, dist := v }) ∧
    (s.host = .wr .len v :: rest → step s = .next { s with host := rest, len := v }) ∧
    (s.host = .wr .acc v :: rest → step s = .next { s with host := rest, acc := v.setWidth 32 }) ∧
    (s.host = .wr .fcmd v :: rest → step s = .next { s with host := rest }) ∧
    (s.host = .wr .cfg v :: rest → step s = .next { s with host := rest })

/-- R105: a host read, by name, through the window or of memory, changes nothing but the value returned (log 10), which
is the register's; CMD and reserved offsets read 0. -/
def Obligations.ReadsHaveNoSideEffect : Prop :=
  (∀ (s : State) (rest : List HostOp) (r : Reg), s.host = .rd r :: rest →
    step s = .next { s with host := rest, readData := readReg r s }) ∧
  (∀ s : State, readReg .cmd s = 0 ∧ readReg .addr s = s.addr ∧ readReg .dist s = s.dist ∧ readReg .len s = s.len ∧
    readReg .acc s = s.acc.setWidth 64 ∧ readReg .fcmd s = s.fcmd.setWidth 64) ∧
  (∀ (s t : State) (rest : List HostOp) (a : Word64) (n : Nat), s.host = .busRead a n :: rest → step s = .next t →
    t = { s with host := rest, readData := t.readData }) ∧
  ∀ (s : State) (rest : List HostOp) (a : Word64), s.host = .mr a :: rest →
    step s = .next { s with host := rest, readData := (s.mem.read a.toNat).setWidth 64 }

/-- R81: every access to the window: 32-bit registers, whole 64-bit registers, their halves, pairs of 32-bit registers
with the low word first, and everything else, which reads 0, is ignored and raises nothing. -/
def Obligations.WindowAccessesFollowTheirWidth : Prop :=
  (∀ (o : Nat) (r : Reg) (s : State) (v : Word64),
    (o, r) ∈ [(0x00, Reg.cmd), (0x04, .status), (0x20, .acc), (0x24, .fcmd), (0x28, .cfg)] →
    readWindow o 4 s = readReg r s ∧
    writeWindow o 4 v s = writeReg r ((v.extractLsb' 0 32).setWidth 64) s) ∧
  (∀ (o : Nat) (r : Reg) (s : State) (v : Word64), (o, r) ∈ [(0x08, Reg.addr), (0x10, .dist), (0x18, .len)] →
    readWindow o 8 s = readReg r s ∧ writeWindow o 8 v s = writeReg r v s ∧
    readWindow o 4 s = ((readReg r s).extractLsb' 0 32).setWidth 64 ∧
    readWindow (o + 4) 4 s = ((readReg r s).extractLsb' 32 32).setWidth 64 ∧
    writeWindow o 4 v s = writeReg r ((readReg r s).extractLsb' 32 32 ++ v.extractLsb' 0 32) s ∧
    writeWindow (o + 4) 4 v s = writeReg r (v.extractLsb' 0 32 ++ (readReg r s).extractLsb' 0 32) s) ∧
  (∀ (o : Nat) (s : State) (v : Word64), o ∈ [0x00, 0x20, 0x28] →
    readWindow o 8 s = (readWindow (o + 4) 4 s).extractLsb' 0 32 ++ (readWindow o 4 s).extractLsb' 0 32 ∧
    writeWindow o 8 v s =
      andThen (writeWindow o 4 v s) (writeWindow (o + 4) 4 ((v.extractLsb' 32 32).setWidth 64))) ∧
  ∀ (o n : Nat) (s : State) (v : Word64), o < 64 →
    (¬ (n = 4 ∨ n = 8) ∨ (n = 4 ∧ (o % 4 ≠ 0 ∨ 0x2C ≤ o)) ∨ (n = 8 ∧ (o % 8 ≠ 0 ∨ 0x30 ≤ o))) →
    readWindow o n s = 0 ∧ writeWindow o n v s = .next s

/-- R80: a bus access at REG_BASE + o, o < 64, is the window access at offset o; one outside the 64 bytes is another
device's, which the model refuses by name (log 12). -/
def Obligations.BusAccessesReachTheWindow : Prop :=
  (∀ (s : State) (rest : List HostOp) (o n : Nat) (v : Word64), o < 64 →
    s.host = .busWrite (s.impl.regBase + BitVec.ofNat 64 o) n v :: rest →
    step s = writeWindow o n v { s with host := rest }) ∧
  (∀ (s : State) (rest : List HostOp) (o n : Nat), o < 64 →
    s.host = .busRead (s.impl.regBase + BitVec.ofNat 64 o) n :: rest →
    step s = .next { s with host := rest, readData := readWindow o n s }) ∧
  ∀ (s : State) (rest : List HostOp) (a v : Word64) (n : Nat), 64 ≤ (a - s.impl.regBase).toNat →
    (s.host = .busWrite a n v :: rest ∨ s.host = .busRead a n :: rest) → step s = .refused .outsideWindow

/-! ### Memory and reset from outside -/

/-- R90, R107: `mw a, b0, b1, ...` writes the bytes and nothing else; one that would pass 2^64 - 1 stops by name
(log 13). -/
def Obligations.HostMemoryWriteStoresItsBytes : Prop :=
  ∀ (s : State) (rest : List HostOp) (a : Word64) (bs : List Byte), s.host = .mw a bs :: rest →
    (a.toNat + bs.length ≤ 2 ^ 64 →
      ∃ m, step s = .next { s with host := rest, mem := m } ∧
        (∀ j < bs.length, m.read (a.toNat + j) = bs.getD j 0) ∧
        ∀ x, ¬ (a.toNat ≤ x ∧ x < a.toNat + bs.length) → m.read x = s.mem.read x) ∧
    (2 ^ 64 < a.toNat + bs.length → step s = .fault .hostAddressOutOfSpace)

/-- R262: a reset during an accepted, legal EXPAND leaves its write footprint to draws (log 5, log 14) and the rest of
memory alone; during any word that writes no memory, all of it alone; the registers are reset, and the host's write has no
completion (log 14). -/
def Obligations.ResetDuringCommandAbandonsIt : Prop :=
  ∀ (s : State) (rest : List HostOp) (c : Word32), s.host = .resetDuring c :: rest →
    ∃ t, step s = .next t ∧ t.addr = 0 ∧ t.dist = 0 ∧ t.len = 0 ∧ t.acc = 0x00000001 ∧ t.fault = false ∧
      t.cause = .none ∧ t.regime = .none ∧ t.fcmd = 0 ∧ t.impl = s.impl ∧ t.faultLog = s.faultLog ∧
      t.readData = s.readData ∧ t.host = [] ∧
      (∀ i, decode c = .instr i → isExpand i = true → s.fault = false → s.expandLegal →
        (∀ j < s.writeSpan, t.mem.read (s.start + j) = Config.freeByte (s.draws + j)) ∧
        ∀ x, ¬ (s.start ≤ x ∧ x < s.start + s.writeSpan) → t.mem.read x = s.mem.read x) ∧
      ((s.fault = true ∨ ¬ s.expandLegal ∨ c = encode .nop ∨ (∃ i, decode c = .instr i ∧ isAdler i = true) ∨
        ∃ why, decode c = .illegal why) →
        t.mem = s.mem)

/-! ### Invariants -/

/-- R28, R38, R101, R150, R225: from every state that meets the invariant, a step gives a state that meets it. -/
def Obligations.EveryStepKeepsTheInvariant : Prop :=
  ∀ s t : State, s.Inv = true → step s = .next t → t.Inv = true

/-- R260: the state after reset meets the invariant. -/
def Obligations.ResetMeetsTheInvariant : Prop := State.reset.Inv = true

/-- R5, R36, R143: no step changes the implementation's parameters, on which alone the tables, the footprint's extent
and CFG depend. -/
def Obligations.StepsKeepTheParameters : Prop :=
  ∀ s t : State, step s = .next t → t.impl = s.impl

/-- R38: two memories in the canonical form that hold the same at every address are the same data. -/
def Obligations.CanonicalMemoriesAreEqualData : Prop :=
  ∀ m m' : Memory, m.wf = true → m'.wf = true → (∀ a, m.cell a = m'.cell a) → m = m'
end

