-- ==== Sys2Proof/Laws/Memory.lean ====
section
/-! SUPPORT. The laws of memory: a read after a write, writes leave every other byte alone, and every operation keeps
the canonical form. -/

namespace Sys2Proof.Machine

variable {α : Type}

theorem lookupAt_insertAt (a x : Nat) (v : α) (l : List (Nat × α)) :
    lookupAt x (insertAt a v l) = if x = a then some v else lookupAt x l := by
  induction l with
  | nil => simp [insertAt, lookupAt]
  | cons c t ih =>
    obtain ⟨k, w⟩ := c
    simp only [insertAt]
    split_ifs <;> simp_all [lookupAt]

theorem lookupAt_eraseAt (a x : Nat) (l : List (Nat × α)) :
    lookupAt x (eraseAt a l) = if x = a then none else lookupAt x l := by
  induction l with
  | nil => simp [eraseAt, lookupAt]
  | cons c t ih =>
    obtain ⟨k, w⟩ := c
    simp only [eraseAt]
    split_ifs <;> simp_all [lookupAt]

theorem risingFrom_weaken {lo lo' : Nat} {l : List (Nat × α)} (h : risingFrom lo l = true) (hlo : lo' ≤ lo) :
    risingFrom lo' l = true := by
  cases l with
  | nil => rfl
  | cons c t => simp only [risingFrom, Bool.and_eq_true, decide_eq_true_eq] at h ⊢; exact ⟨by omega, h.2⟩

theorem risingFrom_insertAt (a : Nat) (v : α) (l : List (Nat × α)) {lo : Nat} (h : risingFrom lo l = true)
    (hlo : lo ≤ a) : risingFrom lo (insertAt a v l) = true := by
  induction l generalizing lo with
  | nil => simp [insertAt, risingFrom, hlo]
  | cons c t ih =>
    obtain ⟨k, w⟩ := c
    simp only [risingFrom, Bool.and_eq_true, decide_eq_true_eq] at h
    simp only [insertAt]
    split_ifs with h1 h2
    · simp [risingFrom, hlo, h.2]; omega
    · subst h2; simp [risingFrom, h.2, h.1]
    · simp [risingFrom, h.1, ih h.2 (by omega)]

theorem risingFrom_eraseAt (a : Nat) (l : List (Nat × α)) {lo : Nat} (h : risingFrom lo l = true) :
    risingFrom lo (eraseAt a l) = true := by
  induction l generalizing lo with
  | nil => rfl
  | cons c t ih =>
    obtain ⟨k, w⟩ := c
    simp only [risingFrom, Bool.and_eq_true, decide_eq_true_eq] at h
    simp only [eraseAt]
    split_ifs with h1
    · exact risingFrom_weaken (ih h.2) (by omega)
    · simp [risingFrom, h.1, ih h.2]

/-- A list that rises from `lo` lists nothing below `lo`. -/
theorem lookupAt_of_risingFrom {lo x : Nat} {l : List (Nat × α)} (h : risingFrom lo l = true) (hx : x < lo) :
    lookupAt x l = none := by
  induction l generalizing lo with
  | nil => rfl
  | cons c t ih =>
    obtain ⟨k, w⟩ := c
    simp only [risingFrom, Bool.and_eq_true, decide_eq_true_eq] at h
    simp only [lookupAt]
    rw [if_neg (by omega)]
    exact ih h.2 (by omega)

theorem mem_insertAt {a : Nat} {v : α} {l : List (Nat × α)} {c : Nat × α} (h : c ∈ insertAt a v l) :
    c = (a, v) ∨ c ∈ l := by
  induction l with
  | nil => simpa [insertAt] using h
  | cons d t ih =>
    obtain ⟨k, w⟩ := d
    simp only [insertAt] at h
    split_ifs at h with h1 h2 <;> simp only [List.mem_cons] at h ⊢ <;> tauto

theorem mem_eraseAt {a : Nat} {l : List (Nat × α)} {c : Nat × α} (h : c ∈ eraseAt a l) : c ∈ l ∧ c.1 ≠ a := by
  induction l with
  | nil => simp [eraseAt] at h
  | cons d t ih =>
    obtain ⟨k, w⟩ := d
    simp only [eraseAt] at h
    split_ifs at h with h1
    · exact ⟨List.mem_cons_of_mem _ (ih h).1, (ih h).2⟩
    · rcases List.mem_cons.mp h with rfl | h
      · exact ⟨List.mem_cons_self, fun e => h1 e.symm⟩
      · exact ⟨List.mem_cons_of_mem _ (ih h).1, (ih h).2⟩

/-- R8: a write of one byte changes that byte and no other. -/
theorem Memory.cell_put (m : Memory) (a x : Nat) (v : MemByte) :
    (m.put a v).cell x = if x = a then v else m.cell x := by
  cases v with
  | drawn k => simp only [put, cell, lookupAt_insertAt, lookupAt_eraseAt]; split_ifs <;> rfl
  | known b =>
    simp only [put, cell, lookupAt_eraseAt]
    by_cases hx : x = a
    · simp only [hx, if_true]
      split_ifs with hb
      · simp [lookupAt_eraseAt, hb]
      · simp [lookupAt_insertAt]
    · simp only [hx, if_false]
      split_ifs with hb
      · simp [lookupAt_eraseAt, hx]
      · simp [lookupAt_insertAt, hx]

/-- R8: a run of bytes changes the bytes of the run and no other. -/
theorem Memory.cell_putRange (m : Memory) (a n x : Nat) (v : Nat → MemByte) :
    (m.putRange a v n).cell x = if a ≤ x ∧ x < a + n then v (x - a) else m.cell x := by
  induction n with
  | zero => simp only [putRange]; rw [if_neg (by omega)]
  | succ n ih =>
    simp only [putRange, cell_put, ih]
    by_cases hx : x = a + n
    · subst hx; simp
    · rw [if_neg hx]
      by_cases h : a ≤ x ∧ x < a + n
      · rw [if_pos h, if_pos ⟨h.1, by omega⟩]
      · rw [if_neg h, if_neg (by omega)]

theorem Memory.read_putRange (m : Memory) (a n x : Nat) (v : Nat → MemByte) :
    (m.putRange a v n).read x = if a ≤ x ∧ x < a + n then (v (x - a)).value else m.read x := by
  simp only [read, cell_putRange]; split_ifs <;> rfl

/-- The parts of the canonical form, as propositions. -/
theorem Memory.wf_iff (m : Memory) :
    m.wf = true ↔ risingFrom 0 m.bytes = true ∧ risingFrom 0 m.drawn = true ∧
      (∀ c ∈ m.bytes, c.1 < addressSpace ∧ c.2 ≠ Memory.unlisted) ∧
      (∀ c ∈ m.drawn, c.1 < addressSpace ∧ lookupAt c.1 m.bytes = none) := by
  simp [wf, List.all_eq_true, Bool.and_eq_true, decide_eq_true_eq, and_assoc, -Prod.forall]

/-- Writing one byte inside the address space keeps the canonical form. -/
theorem Memory.wf_put {m : Memory} (h : m.wf = true) {a : Nat} (ha : a < addressSpace) (v : MemByte) :
    (m.put a v).wf = true := by
  rw [wf_iff] at h ⊢
  obtain ⟨hb, hd, hbytes, hdrawn⟩ := h
  cases v with
  | drawn k =>
    refine ⟨risingFrom_eraseAt a _ hb, risingFrom_insertAt a k _ hd (Nat.zero_le a), ?_, ?_⟩
    · intro c hc; exact hbytes c (mem_eraseAt hc).1
    · intro c hc
      rcases mem_insertAt hc with rfl | hc
      · exact ⟨ha, by simp [put, lookupAt_eraseAt]⟩
      · refine ⟨(hdrawn c hc).1, ?_⟩
        simp only [put, lookupAt_eraseAt, (hdrawn c hc).2, ite_self]
  | known b =>
    simp only [put]
    refine ⟨?_, risingFrom_eraseAt a _ hd, ?_, ?_⟩
    · split_ifs
      · exact risingFrom_eraseAt a _ hb
      · exact risingFrom_insertAt a b _ hb (Nat.zero_le a)
    · intro c hc
      split_ifs at hc with hu
      · exact hbytes c (mem_eraseAt hc).1
      · rcases mem_insertAt hc with rfl | hc
        · exact ⟨ha, hu⟩
        · exact hbytes c hc
    · intro c hc
      obtain ⟨hc, hne⟩ := mem_eraseAt hc
      refine ⟨(hdrawn c hc).1, ?_⟩
      split_ifs
      · simp [lookupAt_eraseAt, (hdrawn c hc).2]
      · simp [lookupAt_insertAt, hne, (hdrawn c hc).2]

/-- Writing a run of bytes inside the address space keeps the canonical form. -/
theorem Memory.wf_putRange {m : Memory} (h : m.wf = true) {a n : Nat} (ha : a + n ≤ addressSpace)
    (v : Nat → MemByte) : (m.putRange a v n).wf = true := by
  induction n with
  | zero => exact h
  | succ n ih => exact wf_put (ih (by omega)) (by omega) _

theorem Memory.drawnBelow_iff (m : Memory) (n : Nat) : m.drawnBelow n = true ↔ ∀ c ∈ m.drawn, c.2 < n := by
  simp [drawnBelow, List.all_eq_true, -Prod.forall]

theorem Memory.drawnBelow_mono {m : Memory} {n n' : Nat} (h : m.drawnBelow n = true) (hn : n ≤ n') :
    m.drawnBelow n' = true := by
  rw [drawnBelow_iff] at h ⊢
  intro c hc; exact lt_of_lt_of_le (h c hc) hn

/-- A byte is old enough when it is known or one of the first `n` draws. -/
def MemByte.below (n : Nat) : MemByte → Prop
  | .known _ => True
  | .drawn k => k < n

theorem Memory.drawnBelow_put {m : Memory} {n a : Nat} (h : m.drawnBelow n = true) {v : MemByte}
    (hv : v.below n) : (m.put a v).drawnBelow n = true := by
  rw [drawnBelow_iff] at h ⊢
  intro c hc
  cases v with
  | known b => exact h c (mem_eraseAt hc).1
  | drawn k =>
    rcases mem_insertAt hc with rfl | hc
    · exact hv
    · exact h c hc

theorem Memory.drawnBelow_putRange {m : Memory} {n a c : Nat} (h : m.drawnBelow n = true) {v : Nat → MemByte}
    (hv : ∀ j < c, (v j).below n) : (m.putRange a v c).drawnBelow n = true := by
  induction c with
  | zero => exact h
  | succ c ih => exact drawnBelow_put (ih fun j hj => hv j (by omega)) (hv c (by omega))

theorem mem_of_lookupAt {a : Nat} {v : α} {l : List (Nat × α)} (h : lookupAt a l = some v) : (a, v) ∈ l := by
  induction l with
  | nil => simp [lookupAt] at h
  | cons c t ih =>
    obtain ⟨k, w⟩ := c
    simp only [lookupAt] at h
    split_ifs at h with h1
    · simp only [Option.some.injEq] at h; subst h; subst h1; exact List.mem_cons_self
    · exact List.mem_cons_of_mem _ (ih h)

theorem Memory.cell_below {m : Memory} {n : Nat} (h : m.drawnBelow n = true) (a : Nat) : (m.cell a).below n := by
  rw [drawnBelow_iff] at h
  unfold cell
  split
  · next k hk => exact h _ (mem_of_lookupAt hk)
  · trivial

end Sys2Proof.Machine
end

