-- ==== Sys2Proof/Laws/Chunk.lean ====
section
/-! SUPPORT. One lemma per chunk primitive: what its lanes are, or what every byte of memory is after it. -/

namespace Sys2Proof.Machine

@[simp] theorem length_load (w p : Nat) (m : Memory) : (load w p m).length = w := by simp [load]

/-- R120: a lane of a load. -/
theorem lane_load {w j : Nat} (p : Nat) (m : Memory) (h : j < w) : (load w p m).lane j = m.cell (p + j) := by
  simp [load, Chunk.lane, List.getD, List.getElem?_range h]

@[simp] theorem length_maskedLoad (masked : Bool) (w p n : Nat) (st : PathState) :
    (maskedLoad masked w p n st).1.length = w := by unfold maskedLoad; split_ifs <;> simp

@[simp] theorem maskedLoad_mem (masked : Bool) (w p n : Nat) (st : PathState) :
    (maskedLoad masked w p n st).2.mem = st.mem := by unfold maskedLoad; split_ifs <;> rfl

/-- R121, R128, R129: a lane of a masked load. -/
theorem lane_maskedLoad {w j : Nat} (masked : Bool) (p n : Nat) (st : PathState) (h : j < w) :
    (maskedLoad masked w p n st).1.lane j =
      if j < n ∨ (masked = false ∧ n ≠ 0) then st.mem.cell (p + j) else .drawn (st.draws + j) := by
  unfold maskedLoad
  by_cases hm : masked = true ∨ n = 0
  · rw [if_pos hm]
    have hf : ¬ (masked = false ∧ n ≠ 0) := by rintro ⟨h1, h2⟩; simp [h1, h2] at hm
    simp [Chunk.lane, List.getD, List.getElem?_range h, hf]
  · rw [if_neg hm, lane_load p st.mem h, if_pos (.inr (by simpa using hm))]

/-- R122: memory after a store. -/
theorem cell_store (p x : Nat) (c : Chunk) (m : Memory) :
    (store p c m).cell x = if p ≤ x ∧ x < p + c.length then c.lane (x - p) else m.cell x :=
  Memory.cell_putRange ..

/-- R123, R128, R129: memory after a masked store. -/
theorem cell_maskedStore (masked : Bool) (p n x : Nat) (c : Chunk) (m : Memory) :
    (maskedStore masked p n c m).cell x =
      if n ≠ 0 ∧ p ≤ x ∧ x < p + (if masked then n else c.length) then c.lane (x - p) else m.cell x := by
  unfold maskedStore
  by_cases hn : n = 0
  · rw [if_pos hn, if_neg (fun h => h.1 hn)]
  · cases masked <;> simp [hn, cell_store, Memory.cell_putRange]

/-- R124: a lane of a permute. -/
theorem lane_permute {pat : List Nat} {j : Nat} (c : Chunk) (h : j < pat.length) :
    (permute c pat).lane j = c.lane pat[j] := by
  simp [permute, Chunk.lane, List.getD, h]

end Sys2Proof.Machine
end

