-- ==== Sys2Proof/Laws/Decode.lean ====
section
/-! SUPPORT. What decoding says of a word, in terms of its fields. -/

namespace Sys2Proof

/-- R86: fields are rejected exactly when they are not well formed. -/
theorem reject_eq_none_iff (f : CmdFields) : f.reject = none ↔ f.wellFormed = true := by
  obtain ⟨op, adv, init, rsv⟩ := f
  by_cases h : rsv = 0
  · subst h
    revert op adv init
    decide
  · have h' : ¬ rsv = 0#26 := h
    simp [CmdFields.reject, CmdFields.wellFormed, h']

/-- R82: splitting a word and joining its fields gives the word back. -/
theorem joinFields_splitWord (c : Word32) : joinFields (splitWord c) = c := by
  apply BitVec.eq_of_getLsbD_eq
  intro k hk
  simp only [joinFields, splitWord, BitVec.getLsbD_append, BitVec.getLsbD_extractLsb', BitVec.getLsbD_ofBool]
  rcases Nat.lt_or_ge k 4 with h | h
  · simp [h]
  · rcases Nat.lt_or_ge k 5 with h' | h'
    · have : k = 4 := by omega
      subst this; simp
    · rcases Nat.lt_or_ge k 6 with h'' | h''
      · have : k = 5 := by omega
        subst this; simp
      · simp [Nat.not_lt.mpr h, show ¬ (k - 4 < 1) by omega, show ¬ (k - 4 - 1 < 1) by omega]
        have e : 6 + (k - 4 - 1 - 1) = k := by omega
        simp [e]; omega

/-- A decoded command is the one its fields select, and its fields are well formed. -/
theorem decode_eq_instr {c : Word32} {i : Instr} (h : decode c = .instr i) :
    (splitWord c).wellFormed = true ∧ i = selectInstr (splitWord c) := by
  unfold decode at h
  split at h
  · cases h
  · next hr => cases h; exact ⟨(reject_eq_none_iff _).mp hr, rfl⟩

end Sys2Proof
end

