-- ==== Sys2Proof/Laws/Flags.lean ====
section
/-! SUPPORT. What the packed registers hold: the accumulator's fields (R182), and the fields of STATUS (R26). -/

namespace Sys2Proof.Machine

/-- R182: a packed accumulator as a number. -/
theorem packAcc_toNat (s1 s2 : Nat) : (packAcc s1 s2).toNat = s2 % 65536 * 65536 + s1 % 65536 := by
  have h := BitVec.toNat_append (BitVec.ofNat 16 s2) (BitVec.ofNat 16 s1)
  have h' : s1 % 2 ^ 16 < 2 ^ 16 := Nat.mod_lt _ (by decide)
  rw [BitVec.toNat_ofNat, BitVec.toNat_ofNat, ← Nat.shiftLeft_add_eq_or_of_lt h', Nat.shiftLeft_eq] at h
  exact h

/-- R182: s1 of a packed accumulator. -/
@[simp] theorem accS1_packAcc (s1 s2 : Nat) : accS1 (packAcc s1 s2) = s1 % 65536 := by
  rw [accS1, BitVec.extractLsb'_toNat, packAcc_toNat, Nat.shiftRight_zero]
  omega

/-- R182: s2 of a packed accumulator. -/
@[simp] theorem accS2_packAcc (s1 s2 : Nat) : accS2 (packAcc s1 s2) = s2 % 65536 := by
  rw [accS2, BitVec.extractLsb'_toNat, packAcc_toNat, Nat.shiftRight_eq_div_pow]
  omega

theorem accS1_lt (a : Word32) : accS1 a < 65536 := (a.extractLsb' 0 16).isLt

theorem accS2_lt (a : Word32) : accS2 a < 65536 := (a.extractLsb' 16 16).isLt

/-- R28: a cause's code is 0 exactly for no cause. -/
theorem cause_code_eq_zero_iff (c : Cause) : c.code = 0 ↔ c = .none := by cases c <;> decide

/-- R27: the codes of two regimes are equal only if the regimes are. -/
theorem regime_code_inj {r q : Regime} (h : r.code = q.code) : r = q := by
  revert h; cases r <;> cases q <;> decide

end Sys2Proof.Machine
end

