-- ==== Sys2Proof/Laws/Lanes.lean ====
section
/-! SUPPORT. What the lane operations of ADLER's datapath do to the sum of the lanes, on which alone its result depends
(R191). -/

namespace Sys2Proof.Machine

theorem sumTo_congr {f g : Nat → Nat} {n : Nat} (h : ∀ i < n, f i = g i) : sumTo f n = sumTo g n := by
  induction n with
  | zero => rfl
  | succ n ih => rw [sumTo, sumTo, ih fun i hi => h i (by omega), h n (by omega)]

theorem sumTo_succ_left (f : Nat → Nat) (n : Nat) : sumTo f (n + 1) = f 0 + sumTo (fun i => f (i + 1)) n := by
  induction n with
  | zero => simp [sumTo]
  | succ n ih => rw [sumTo, ih, sumTo, Nat.add_assoc]

theorem sumTo_add (f g : Nat → Nat) (n : Nat) : sumTo (fun i => f i + g i) n = sumTo f n + sumTo g n := by
  induction n with
  | zero => rfl
  | succ n ih => simp only [sumTo, ih]; omega

theorem sumTo_zero (n : Nat) : sumTo (fun _ => 0) n = 0 := by
  induction n with
  | zero => rfl
  | succ n ih => rw [sumTo, ih]

/-- A sum with one part that is not 0. -/
theorem sumTo_single (n q x : Nat) (h : q < n) : sumTo (fun i => if q = i then x else 0) n = x := by
  induction n with
  | zero => omega
  | succ n ih =>
    rw [sumTo]
    by_cases hq : q = n
    · rw [sumTo_congr (g := fun _ => 0) fun i hi => if_neg (by omega), sumTo_zero, if_pos hq, Nat.zero_add]
    · rw [ih (by omega), if_neg hq, Nat.add_zero]

/-- R188: the sum of the lanes, as an integer sum reduced modulo 2^32. -/
theorem hsum_eq_sumTo (v : LaneVec) : hsum v = BitVec.ofNat 32 (sumTo (fun q => (v.getD q 0).toNat) v.length) := by
  induction v with
  | nil => rfl
  | cons x v ih =>
    have h : hsum (x :: v) = x + hsum v := rfl
    rw [h, ih, List.length_cons, sumTo_succ_left, BitVec.ofNat_add]
    simp

/-- The sum of lanes given by integers, each reduced to its lane. -/
theorem hsum_ofNat_map (f : Nat → Nat) (n : Nat) :
    hsum ((List.range n).map fun q => BitVec.ofNat 32 (f q)) = BitVec.ofNat 32 (sumTo f n) := by
  rw [hsum_eq_sumTo]
  apply BitVec.eq_of_toNat_eq
  simp only [List.length_map, List.length_range, BitVec.toNat_ofNat]
  induction n with
  | zero => rfl
  | succ n ih =>
    have hc : sumTo (fun q => (((List.range (n + 1)).map fun q => BitVec.ofNat 32 (f q)).getD q 0).toNat) n =
        sumTo (fun q => (((List.range n).map fun q => BitVec.ofNat 32 (f q)).getD q 0).toNat) n :=
      sumTo_congr fun i hi => by simp [List.getD, List.getElem?_range hi, List.getElem?_range (Nat.lt_succ_of_lt hi)]
    have hl : (((List.range (n + 1)).map fun q => BitVec.ofNat 32 (f q)).getD n 0).toNat = f n % 2 ^ 32 := by simp [List.getD]
    rw [sumTo, sumTo, hc, hl]
    omega

/-- R188: adding vectors lane-wise adds their sums. -/
theorem hsum_addLanes {u v : LaneVec} (h : u.length = v.length) : hsum (addLanes u v) = hsum u + hsum v := by
  induction u generalizing v with
  | nil =>
    cases v with
    | nil => rfl
    | cons y v => simp at h
  | cons x u ih =>
    cases v with
    | nil => simp at h
    | cons y v =>
      have := ih (v := v) (by simpa using h)
      show x + y + hsum (addLanes u v) = x + hsum u + (y + hsum v)
      rw [this]; ac_rfl

/-- R191: whatever the partition, the lanes' sum is the sum of the parts. -/
theorem hsum_scatter {lanes : Nat} (part f : Nat → Nat) (w : Nat) (h : 0 < lanes) :
    hsum (scatter lanes part f w) = BitVec.ofNat 32 (sumTo f w) := by
  rw [scatter, hsum_ofNat_map]
  congr 1
  induction w with
  | zero => exact sumTo_zero lanes
  | succ w ih => simp only [sumTo, sumTo_add, ih, sumTo_single _ _ _ (Nat.mod_lt _ h)]

/-- R191: whatever the partition, moving lanes keeps their sum. -/
theorem hsum_moveLanes {lanes : Nat} (part : Nat → Nat) (v : LaneVec) (h : 0 < lanes) :
    hsum (moveLanes lanes part v) = hsum v := by
  rw [moveLanes, hsum_scatter _ _ _ h, hsum_eq_sumTo]

/-- R188: scaling every lane scales the sum. -/
theorem hsum_map_mul (c : Word32) (v : LaneVec) : hsum (v.map fun x => c * x) = c * hsum v := by
  induction v with
  | nil => simp [hsum]
  | cons x v ih =>
    show c * x + hsum (v.map fun x => c * x) = c * (x + hsum v)
    rw [ih, BitVec.mul_add]

@[simp] theorem length_scatter (lanes : Nat) (part f : Nat → Nat) (w : Nat) :
    (scatter lanes part f w).length = lanes := by simp [scatter]

@[simp] theorem length_moveLanes (lanes : Nat) (part : Nat → Nat) (v : LaneVec) :
    (moveLanes lanes part v).length = lanes := by simp [moveLanes]

/-- Each lane vector has `lanes` lanes. -/
def Lanes.sized (lanes : Nat) (v : Lanes) : Prop :=
  v.vs1.length = lanes ∧ v.vs2.length = lanes ∧ v.vs3.length = lanes

/-- R188, D35: what the lanes sum to at the start of a block. -/
theorem startLanes_spec {lanes : Nat} (s1 s2 : Nat) (h : 0 < lanes) :
    (startLanes lanes s1 s2).sized lanes ∧ hsum (startLanes lanes s1 s2).vs1 = BitVec.ofNat 32 s1 ∧
      hsum (startLanes lanes s1 s2).vs2 = BitVec.ofNat 32 s2 ∧ hsum (startLanes lanes s1 s2).vs3 = 0 := by
  have hz : ∀ n, hsum (List.replicate n 0) = 0 := fun n => by
    induction n with
    | zero => rfl
    | succ n ih =>
      show 0 + hsum (List.replicate n 0) = 0
      rw [ih]; rfl
  have hc : ∀ x : Word32, hsum (x :: List.replicate (lanes - 1) 0) = x := fun x => by
    show x + hsum (List.replicate (lanes - 1) 0) = x
    rw [hz]; simp
  refine ⟨⟨?_, ?_, ?_⟩, hc _, hc _, hz _⟩ <;> simp [startLanes] <;> omega

/-- R188, R191: what a chunk does to the sums of the lanes, whatever the partition. -/
theorem chunkStep_spec {w lanes : Nat} (part : Partition) (b : Nat → Nat) (p c : Nat) {v : Lanes} (h : 0 < lanes)
    (hv : v.sized lanes) :
    (chunkStep w lanes part b p c v).sized lanes ∧
      hsum (chunkStep w lanes part b p c v).vs3 = hsum v.vs3 + hsum v.vs1 ∧
      hsum (chunkStep w lanes part b p c v).vs1 =
        hsum v.vs1 + BitVec.ofNat 32 (sumTo (fun j => b (p + c * w + j)) w) ∧
      hsum (chunkStep w lanes part b p c v).vs2 =
        hsum v.vs2 + BitVec.ofNat 32 (sumTo (fun j => (w - j) * b (p + c * w + j)) w) := by
  obtain ⟨h1, h2, h3⟩ := hv
  refine ⟨⟨?_, ?_, ?_⟩, ?_, ?_, ?_⟩
  · simp [chunkStep, addLanes, h1]
  · simp [chunkStep, addLanes, h2]
  · simp [chunkStep, addLanes, h3]
  · rw [chunkStep, hsum_addLanes (by simp [h3]), hsum_moveLanes _ _ h]
  · rw [chunkStep, hsum_addLanes (by simp [h1]), hsum_scatter _ _ _ h]
  · rw [chunkStep, hsum_addLanes (by simp [h2]), hsum_scatter _ _ _ h]

end Sys2Proof.Machine
end

