-- ==== Sys2Proof/Laws/State.lean ====
section
/-! SUPPORT. What each named update of the state does to each field: one lemma per field and update, so that no proof
unfolds a record update. -/

namespace Sys2Proof.Machine

@[simp] theorem raiseFault_impl (c : Cause) (w : Word32) (s : State) : (raiseFault c w s).impl = s.impl := rfl
@[simp] theorem raiseFault_addr (c : Cause) (w : Word32) (s : State) : (raiseFault c w s).addr = s.addr := rfl
@[simp] theorem raiseFault_dist (c : Cause) (w : Word32) (s : State) : (raiseFault c w s).dist = s.dist := rfl
@[simp] theorem raiseFault_len (c : Cause) (w : Word32) (s : State) : (raiseFault c w s).len = s.len := rfl
@[simp] theorem raiseFault_acc (c : Cause) (w : Word32) (s : State) : (raiseFault c w s).acc = s.acc := rfl
@[simp] theorem raiseFault_fault (c : Cause) (w : Word32) (s : State) : (raiseFault c w s).fault = true := rfl
@[simp] theorem raiseFault_cause (c : Cause) (w : Word32) (s : State) : (raiseFault c w s).cause = c := rfl
@[simp] theorem raiseFault_regime (c : Cause) (w : Word32) (s : State) : (raiseFault c w s).regime = s.regime := rfl
@[simp] theorem raiseFault_fcmd (c : Cause) (w : Word32) (s : State) : (raiseFault c w s).fcmd = w := rfl
@[simp] theorem raiseFault_mem (c : Cause) (w : Word32) (s : State) : (raiseFault c w s).mem = s.mem := rfl
@[simp] theorem raiseFault_faultLog (c : Cause) (w : Word32) (s : State) :
    (raiseFault c w s).faultLog = ⟨c, w⟩ :: s.faultLog := rfl
@[simp] theorem raiseFault_draws (c : Cause) (w : Word32) (s : State) : (raiseFault c w s).draws = s.draws := rfl
@[simp] theorem raiseFault_host (c : Cause) (w : Word32) (s : State) : (raiseFault c w s).host = s.host := rfl
@[simp] theorem raiseFault_readData (c : Cause) (w : Word32) (s : State) : (raiseFault c w s).readData = s.readData :=
  rfl

@[simp] theorem writeStatus_impl (v : Word32) (s : State) : (writeStatus v s).impl = s.impl := by
  unfold writeStatus; split_ifs <;> rfl
@[simp] theorem writeStatus_addr (v : Word32) (s : State) : (writeStatus v s).addr = s.addr := by
  unfold writeStatus; split_ifs <;> rfl
@[simp] theorem writeStatus_dist (v : Word32) (s : State) : (writeStatus v s).dist = s.dist := by
  unfold writeStatus; split_ifs <;> rfl
@[simp] theorem writeStatus_len (v : Word32) (s : State) : (writeStatus v s).len = s.len := by
  unfold writeStatus; split_ifs <;> rfl
@[simp] theorem writeStatus_acc (v : Word32) (s : State) : (writeStatus v s).acc = s.acc := by
  unfold writeStatus; split_ifs <;> rfl
@[simp] theorem writeStatus_fault (v : Word32) (s : State) :
    (writeStatus v s).fault = if v.getLsbD 0 then false else s.fault := by
  unfold writeStatus; split_ifs <;> rfl
@[simp] theorem writeStatus_cause (v : Word32) (s : State) :
    (writeStatus v s).cause = if v.getLsbD 0 then .none else s.cause := by
  unfold writeStatus; split_ifs <;> rfl
@[simp] theorem writeStatus_regime (v : Word32) (s : State) : (writeStatus v s).regime = s.regime := by
  unfold writeStatus; split_ifs <;> rfl
@[simp] theorem writeStatus_fcmd (v : Word32) (s : State) : (writeStatus v s).fcmd = s.fcmd := by
  unfold writeStatus; split_ifs <;> rfl
@[simp] theorem writeStatus_mem (v : Word32) (s : State) : (writeStatus v s).mem = s.mem := by
  unfold writeStatus; split_ifs <;> rfl
@[simp] theorem writeStatus_faultLog (v : Word32) (s : State) : (writeStatus v s).faultLog = s.faultLog := by
  unfold writeStatus; split_ifs <;> rfl
@[simp] theorem writeStatus_draws (v : Word32) (s : State) : (writeStatus v s).draws = s.draws := by
  unfold writeStatus; split_ifs <;> rfl
@[simp] theorem writeStatus_host (v : Word32) (s : State) : (writeStatus v s).host = s.host := by
  unfold writeStatus; split_ifs <;> rfl
@[simp] theorem writeStatus_readData (v : Word32) (s : State) : (writeStatus v s).readData = s.readData := by
  unfold writeStatus; split_ifs <;> rfl

@[simp] theorem advance_impl (a n : Nat) (s : State) : (advance a n s).impl = s.impl := by
  unfold advance; split_ifs <;> rfl
@[simp] theorem advance_addr (a n : Nat) (s : State) :
    (advance a n s).addr = if a + n < addressSpace then BitVec.ofNat 64 (a + n) else Config.freeAddr s.draws := by
  unfold advance; split_ifs <;> rfl
@[simp] theorem advance_dist (a n : Nat) (s : State) : (advance a n s).dist = s.dist := by
  unfold advance; split_ifs <;> rfl
@[simp] theorem advance_len (a n : Nat) (s : State) : (advance a n s).len = s.len := by
  unfold advance; split_ifs <;> rfl
@[simp] theorem advance_acc (a n : Nat) (s : State) : (advance a n s).acc = s.acc := by
  unfold advance; split_ifs <;> rfl
@[simp] theorem advance_fault (a n : Nat) (s : State) : (advance a n s).fault = s.fault := by
  unfold advance; split_ifs <;> rfl
@[simp] theorem advance_cause (a n : Nat) (s : State) : (advance a n s).cause = s.cause := by
  unfold advance; split_ifs <;> rfl
@[simp] theorem advance_regime (a n : Nat) (s : State) : (advance a n s).regime = s.regime := by
  unfold advance; split_ifs <;> rfl
@[simp] theorem advance_fcmd (a n : Nat) (s : State) : (advance a n s).fcmd = s.fcmd := by
  unfold advance; split_ifs <;> rfl
@[simp] theorem advance_mem (a n : Nat) (s : State) : (advance a n s).mem = s.mem := by
  unfold advance; split_ifs <;> rfl
@[simp] theorem advance_faultLog (a n : Nat) (s : State) : (advance a n s).faultLog = s.faultLog := by
  unfold advance; split_ifs <;> rfl
@[simp] theorem advance_draws (a n : Nat) (s : State) :
    (advance a n s).draws = if a + n < addressSpace then s.draws else s.draws + 1 := by
  unfold advance; split_ifs <;> rfl
@[simp] theorem advance_host (a n : Nat) (s : State) : (advance a n s).host = s.host := by
  unfold advance; split_ifs <;> rfl
@[simp] theorem advance_readData (a n : Nat) (s : State) : (advance a n s).readData = s.readData := by
  unfold advance; split_ifs <;> rfl

@[simp] theorem advanceIf_impl (b : Bool) (a n : Nat) (s : State) : (advanceIf b a n s).impl = s.impl := by
  cases b <;> simp [advanceIf]
@[simp] theorem advanceIf_addr (b : Bool) (a n : Nat) (s : State) :
    (advanceIf b a n s).addr = if b then (if a + n < addressSpace then BitVec.ofNat 64 (a + n) else Config.freeAddr s.draws) else s.addr := by
  cases b <;> simp [advanceIf]
@[simp] theorem advanceIf_dist (b : Bool) (a n : Nat) (s : State) : (advanceIf b a n s).dist = s.dist := by
  cases b <;> simp [advanceIf]
@[simp] theorem advanceIf_len (b : Bool) (a n : Nat) (s : State) : (advanceIf b a n s).len = s.len := by
  cases b <;> simp [advanceIf]
@[simp] theorem advanceIf_acc (b : Bool) (a n : Nat) (s : State) : (advanceIf b a n s).acc = s.acc := by
  cases b <;> simp [advanceIf]
@[simp] theorem advanceIf_fault (b : Bool) (a n : Nat) (s : State) : (advanceIf b a n s).fault = s.fault := by
  cases b <;> simp [advanceIf]
@[simp] theorem advanceIf_cause (b : Bool) (a n : Nat) (s : State) : (advanceIf b a n s).cause = s.cause := by
  cases b <;> simp [advanceIf]
@[simp] theorem advanceIf_regime (b : Bool) (a n : Nat) (s : State) : (advanceIf b a n s).regime = s.regime := by
  cases b <;> simp [advanceIf]
@[simp] theorem advanceIf_fcmd (b : Bool) (a n : Nat) (s : State) : (advanceIf b a n s).fcmd = s.fcmd := by
  cases b <;> simp [advanceIf]
@[simp] theorem advanceIf_mem (b : Bool) (a n : Nat) (s : State) : (advanceIf b a n s).mem = s.mem := by
  cases b <;> simp [advanceIf]
@[simp] theorem advanceIf_faultLog (b : Bool) (a n : Nat) (s : State) : (advanceIf b a n s).faultLog = s.faultLog :=
  by
  cases b <;> simp [advanceIf]
@[simp] theorem advanceIf_draws (b : Bool) (a n : Nat) (s : State) :
    (advanceIf b a n s).draws = if b = true ∧ addressSpace ≤ a + n then s.draws + 1 else s.draws := by
  cases b <;> simp only [advanceIf, Bool.false_eq_true, false_and, true_and, if_true, if_false, advance_draws]
  split_ifs <;> omega
@[simp] theorem advanceIf_host (b : Bool) (a n : Nat) (s : State) : (advanceIf b a n s).host = s.host := by
  cases b <;> simp [advanceIf]
@[simp] theorem advanceIf_readData (b : Bool) (a n : Nat) (s : State) : (advanceIf b a n s).readData = s.readData :=
  by
  cases b <;> simp [advanceIf]

@[simp] theorem drawBytes_impl (a n : Nat) (s : State) : (drawBytes a n s).impl = s.impl := rfl
@[simp] theorem drawBytes_addr (a n : Nat) (s : State) : (drawBytes a n s).addr = s.addr := rfl
@[simp] theorem drawBytes_dist (a n : Nat) (s : State) : (drawBytes a n s).dist = s.dist := rfl
@[simp] theorem drawBytes_len (a n : Nat) (s : State) : (drawBytes a n s).len = s.len := rfl
@[simp] theorem drawBytes_acc (a n : Nat) (s : State) : (drawBytes a n s).acc = s.acc := rfl
@[simp] theorem drawBytes_fault (a n : Nat) (s : State) : (drawBytes a n s).fault = s.fault := rfl
@[simp] theorem drawBytes_cause (a n : Nat) (s : State) : (drawBytes a n s).cause = s.cause := rfl
@[simp] theorem drawBytes_regime (a n : Nat) (s : State) : (drawBytes a n s).regime = s.regime := rfl
@[simp] theorem drawBytes_fcmd (a n : Nat) (s : State) : (drawBytes a n s).fcmd = s.fcmd := rfl
@[simp] theorem drawBytes_mem (a n : Nat) (s : State) :
    (drawBytes a n s).mem = s.mem.putRange a (fun j => .drawn (s.draws + j)) n := rfl
@[simp] theorem drawBytes_faultLog (a n : Nat) (s : State) : (drawBytes a n s).faultLog = s.faultLog := rfl
@[simp] theorem drawBytes_draws (a n : Nat) (s : State) : (drawBytes a n s).draws = s.draws + n := rfl
@[simp] theorem drawBytes_host (a n : Nat) (s : State) : (drawBytes a n s).host = s.host := rfl
@[simp] theorem drawBytes_readData (a n : Nat) (s : State) : (drawBytes a n s).readData = s.readData := rfl

@[simp] theorem blockReset_impl (s : State) : (blockReset s).impl = s.impl := rfl
@[simp] theorem blockReset_addr (s : State) : (blockReset s).addr = 0 := rfl
@[simp] theorem blockReset_dist (s : State) : (blockReset s).dist = 0 := rfl
@[simp] theorem blockReset_len (s : State) : (blockReset s).len = 0 := rfl
@[simp] theorem blockReset_acc (s : State) : (blockReset s).acc = 1 := rfl
@[simp] theorem blockReset_fault (s : State) : (blockReset s).fault = false := rfl
@[simp] theorem blockReset_cause (s : State) : (blockReset s).cause = .none := rfl
@[simp] theorem blockReset_regime (s : State) : (blockReset s).regime = .none := rfl
@[simp] theorem blockReset_fcmd (s : State) : (blockReset s).fcmd = 0 := rfl
@[simp] theorem blockReset_mem (s : State) : (blockReset s).mem = s.mem := rfl
@[simp] theorem blockReset_faultLog (s : State) : (blockReset s).faultLog = s.faultLog := rfl
@[simp] theorem blockReset_draws (s : State) : (blockReset s).draws = s.draws := rfl
@[simp] theorem blockReset_host (s : State) : (blockReset s).host = s.host := rfl
@[simp] theorem blockReset_readData (s : State) : (blockReset s).readData = s.readData := rfl

@[simp] theorem expandEffect_impl (s : State) : (expandEffect s).impl = s.impl := rfl
@[simp] theorem expandEffect_addr (s : State) : (expandEffect s).addr = s.addr := rfl
@[simp] theorem expandEffect_dist (s : State) : (expandEffect s).dist = s.dist := rfl
@[simp] theorem expandEffect_len (s : State) : (expandEffect s).len = s.len := rfl
@[simp] theorem expandEffect_acc (s : State) : (expandEffect s).acc = s.acc := rfl
@[simp] theorem expandEffect_fault (s : State) : (expandEffect s).fault = s.fault := rfl
@[simp] theorem expandEffect_cause (s : State) : (expandEffect s).cause = s.cause := rfl
@[simp] theorem expandEffect_regime (s : State) : (expandEffect s).regime = regimeOf s.distance s.impl.width := rfl
@[simp] theorem expandEffect_fcmd (s : State) : (expandEffect s).fcmd = s.fcmd := rfl
@[simp] theorem expandEffect_mem (s : State) : (expandEffect s).mem = (writeRun s.start s.distance s.count s.mem).putRange (s.start + s.count)
      (fun j => .drawn (s.draws + j)) (s.writeSpan - s.count) := rfl
@[simp] theorem expandEffect_faultLog (s : State) : (expandEffect s).faultLog = s.faultLog := rfl
@[simp] theorem expandEffect_draws (s : State) : (expandEffect s).draws = s.draws + (s.writeSpan - s.count) := rfl
@[simp] theorem expandEffect_host (s : State) : (expandEffect s).host = s.host := rfl
@[simp] theorem expandEffect_readData (s : State) : (expandEffect s).readData = s.readData := rfl

@[simp] theorem hostWriteBytes_impl (a : Nat) (bs : List Byte) (s : State) : (hostWriteBytes a bs s).impl = s.impl :=
  rfl
@[simp] theorem hostWriteBytes_addr (a : Nat) (bs : List Byte) (s : State) : (hostWriteBytes a bs s).addr = s.addr :=
  rfl
@[simp] theorem hostWriteBytes_dist (a : Nat) (bs : List Byte) (s : State) : (hostWriteBytes a bs s).dist = s.dist :=
  rfl
@[simp] theorem hostWriteBytes_len (a : Nat) (bs : List Byte) (s : State) : (hostWriteBytes a bs s).len = s.len := rfl
@[simp] theorem hostWriteBytes_acc (a : Nat) (bs : List Byte) (s : State) : (hostWriteBytes a bs s).acc = s.acc := rfl
@[simp] theorem hostWriteBytes_fault (a : Nat) (bs : List Byte) (s : State) :
    (hostWriteBytes a bs s).fault = s.fault := rfl
@[simp] theorem hostWriteBytes_cause (a : Nat) (bs : List Byte) (s : State) :
    (hostWriteBytes a bs s).cause = s.cause := rfl
@[simp] theorem hostWriteBytes_regime (a : Nat) (bs : List Byte) (s : State) :
    (hostWriteBytes a bs s).regime = s.regime := rfl
@[simp] theorem hostWriteBytes_fcmd (a : Nat) (bs : List Byte) (s : State) : (hostWriteBytes a bs s).fcmd = s.fcmd :=
  rfl
@[simp] theorem hostWriteBytes_mem (a : Nat) (bs : List Byte) (s : State) :
    (hostWriteBytes a bs s).mem = s.mem.putRange a (fun j => .known (bs.getD j 0)) bs.length := rfl
@[simp] theorem hostWriteBytes_faultLog (a : Nat) (bs : List Byte) (s : State) :
    (hostWriteBytes a bs s).faultLog = s.faultLog := rfl
@[simp] theorem hostWriteBytes_draws (a : Nat) (bs : List Byte) (s : State) :
    (hostWriteBytes a bs s).draws = s.draws := rfl
@[simp] theorem hostWriteBytes_host (a : Nat) (bs : List Byte) (s : State) : (hostWriteBytes a bs s).host = s.host :=
  rfl
@[simp] theorem hostWriteBytes_readData (a : Nat) (bs : List Byte) (s : State) :
    (hostWriteBytes a bs s).readData = s.readData := rfl

end Sys2Proof.Machine
end

