-- ==== Sys2Proof/Laws/Ops.lean ====
section
/-! SUPPORT. One lemma per shared operation that says what it can do; later proofs cite these and do not unfold. -/

namespace Sys2Proof.Machine

/-! ### Arithmetic of footprints -/

theorem Width.bytes_pos (w : Width) : 0 < w.bytes := by cases w <;> decide

theorem le_roundup (l : Nat) {w : Nat} (hw : 0 < w) : l ≤ roundup l w := by
  have h := Nat.div_add_mod (l + w - 1) w
  have h' := Nat.mod_lt (l + w - 1) hw
  unfold roundup ceilDiv
  omega

theorem roundup_lt (l : Nat) {w : Nat} (hw : 0 < w) : roundup l w < l + w := by
  have h := Nat.div_mul_le_self (l + w - 1) w
  unfold roundup ceilDiv
  rw [Nat.mul_comm]
  omega

theorem count_le_writeSpan (s : State) : s.count ≤ s.writeSpan := le_roundup _ (Width.bytes_pos _)

theorem writeSpan_lt (s : State) : s.writeSpan < s.count + s.w := roundup_lt _ (Width.bytes_pos _)

/-- R55: the check over a range holds exactly when `Accessible` holds on every byte of it. -/
theorem rangeAccessible_iff (p : Impl) (lo n : Nat) :
    rangeAccessible p lo n = true ↔ ∀ a, lo ≤ a → a < lo + n → p.isAccessible a = true := by
  induction n with
  | zero => simp only [rangeAccessible, true_iff]; intro a h1 h2; omega
  | succ n ih =>
    simp only [rangeAccessible, Bool.and_eq_true, ih]
    constructor
    · rintro ⟨h, hr⟩ a h1 h2
      by_cases ha : a = lo + n
      · exact ha ▸ h
      · exact hr a h1 (by omega)
    · intro h
      exact ⟨h _ (by omega) (by omega), fun a h1 h2 => h a h1 (by omega)⟩

/-! ### Checks -/

/-- R221: EXPAND passes every check exactly when it is legal. -/
theorem checkExpand_none_iff (s : State) : checkExpand s = none ↔ s.expandLegal := by
  unfold checkExpand State.expandLegal
  split_ifs with h1 h2 h3 h4 <;> simp_all <;> omega

/-- R221: ADLER passes every check exactly when it reads nothing or is legal. -/
theorem checkAdler_none_iff (s : State) :
    checkAdler s = none ↔ s.start = 0 ∨ s.count = 0 ∨ s.adlerLegal := by
  unfold checkAdler State.adlerLegal
  split_ifs with h1 h2 h3 <;> simp_all <;> omega

/-- R102: a checked command answers a next state always: its effect, or the fault's record. -/
theorem checked_eq (i : Instr) (c : Option Cause) (f : State → State) (s : State) :
    ∃ t, checked i c f s = .next t ∧
      ((c = none ∧ t = f s) ∨ ∃ k, c = some k ∧ t = raiseFault k (encode i) s) := by
  cases c with
  | none => exact ⟨f s, rfl, .inl ⟨rfl, rfl⟩⟩
  | some k => exact ⟨_, rfl, .inr ⟨k, rfl, rfl⟩⟩

/-! ### Effects -/

/-- R146, R150: what every byte of memory holds after an EXPAND. -/
theorem expandEffect_cell (s : State) (x : Nat) :
    (expandEffect s).mem.cell x =
      if s.start ≤ x ∧ x < s.start + s.count then
        s.mem.cell (s.start - s.distance + (x - s.start) % s.distance)
      else if s.start + s.count ≤ x ∧ x < s.start + s.writeSpan then
        .drawn (s.draws + (x - (s.start + s.count)))
      else s.mem.cell x := by
  have hs := count_le_writeSpan s
  rw [expandEffect_mem, Memory.cell_putRange, writeRun, Memory.cell_putRange]
  by_cases h1 : s.start ≤ x ∧ x < s.start + s.count
  · rw [if_neg (by omega), if_pos h1, if_pos h1]
  · rw [if_neg h1, if_neg h1]
    by_cases h2 : s.start + s.count ≤ x ∧ x < s.start + s.writeSpan
    · rw [if_pos h2, if_pos (by omega)]
    · rw [if_neg h2, if_neg (by omega)]

/-- What any command can do: its own effect where its checks pass, else the fault's record. -/
theorem exec_cases (i : Instr) (s : State) :
    (i = .nop ∧ exec i s = .next s) ∨
    (isExpand i = true ∧
      exec i s = checked i (checkExpand s)
        (fun s => advanceIf (advBit i) s.start s.count (expandEffect s)) s) ∨
    (isAdler i = true ∧
      exec i s = checked i (checkAdler s)
        (fun s => advanceIf (advBit i) s.start s.count { s with acc := adlerResult (initBit i) s }) s) := by
  cases i
  · exact .inl ⟨rfl, rfl⟩
  · exact .inr (.inl ⟨rfl, rfl⟩)
  · exact .inr (.inl ⟨rfl, rfl⟩)
  · exact .inr (.inr ⟨rfl, rfl⟩)
  · exact .inr (.inr ⟨rfl, rfl⟩)
  · exact .inr (.inr ⟨rfl, rfl⟩)
  · exact .inr (.inr ⟨rfl, rfl⟩)

/-- R100, R101: what a host write of `c` to CMD can do. -/
theorem issue_cases (c : Word32) (s : State) :
    (s.fault = true ∧ issue c s = .next s) ∨
    (s.fault = false ∧ (∃ why, decode c = .illegal why) ∧ issue c s = .next (raiseFault .illegalCmd c s)) ∨
    (s.fault = false ∧ ∃ i, decode c = .instr i ∧ issue c s = exec i s) := by
  unfold issue
  cases hf : s.fault with
  | true => exact .inl ⟨rfl, rfl⟩
  | false =>
    cases hd : decode c with
    | illegal why => exact .inr (.inl ⟨rfl, ⟨why, rfl⟩, by simp⟩)
    | instr i => exact .inr (.inr ⟨rfl, i, rfl, by simp⟩)

/-- R106: what a write of a register can do. -/
theorem writeReg_cases (r : Reg) (v : Word64) (s : State) :
    (r = .cmd ∧ writeReg r v s = issue (v.setWidth 32) s) ∨
    (r = .status ∧ writeReg r v s = .next (writeStatus (v.setWidth 32) s)) ∨
    (r = .addr ∧ writeReg r v s = .next { s with addr := v }) ∨
    (r = .dist ∧ writeReg r v s = .next { s with dist := v }) ∨
    (r = .len ∧ writeReg r v s = .next { s with len := v }) ∨
    (r = .acc ∧ writeReg r v s = .next { s with acc := v.setWidth 32 }) ∨
    ((r = .fcmd ∨ r = .cfg) ∧ writeReg r v s = .next s) := by
  cases r <;> simp [writeReg]

/-- R81: a 32-bit write of a slot is a write of a register, or is ignored. -/
theorem writeSlot_cases (slot : Slot) (v : Word32) (s : State) :
    (∃ r u, writeSlot slot v s = writeReg r u s) ∨ writeSlot slot v s = .next s := by
  cases slot with
  | word r => exact .inl ⟨r, _, rfl⟩
  | low r => exact .inl ⟨r, _, rfl⟩
  | high r => exact .inl ⟨r, _, rfl⟩
  | reserved => exact .inr rfl

/-- Going on after a next state. -/
@[simp] theorem andThen_next (s : State) (f : State → Host.Outcome State Fault Refusal) :
    andThen (.next s) f = f s := rfl

/-- Where a sequence answers a next state, each part did. -/
theorem andThen_eq_next {r : Host.Outcome State Fault Refusal} {f : State → Host.Outcome State Fault Refusal}
    {u : State} (h : andThen r f = .next u) : ∃ t, r = .next t ∧ f t = .next u := by
  cases r with
  | next t => exact ⟨t, rfl, h⟩
  | fault e => cases h
  | refused e => cases h

/-- R81: what a write through the window can do. -/
theorem writeWindow_cases {off n : Nat} {v : Word64} {s u : State} (h : writeWindow off n v s = .next u) :
    u = s ∨ writeSlot (slotAt off) (v.extractLsb' 0 32) s = .next u ∨
      ∃ t, writeSlot (slotAt off) (v.extractLsb' 0 32) s = .next t ∧
        writeSlot (slotAt (off + 4)) (v.extractLsb' 32 32) t = .next u := by
  unfold writeWindow at h
  split_ifs at h
  · exact .inr (.inl h)
  · exact .inr (.inr (andThen_eq_next h))
  · cases h; exact .inl rfl

/-- R262: an abandoned command's write footprint lies inside the address space, and is empty or that of a legal
EXPAND. -/
theorem abandonedSpan_cases (c : Word32) (s : State) :
    abandonedSpan c s = 0 ∨ (abandonedSpan c s = s.writeSpan ∧ s.expandLegal) := by
  unfold abandonedSpan
  split
  · exact .inl rfl
  · split <;> first
      | exact .inl rfl
      | (split_ifs with h
         · exact .inr ⟨rfl, (checkExpand_none_iff s).mp h⟩
         · exact .inl rfl)

end Sys2Proof.Machine
end

