-- ==== Sys2Proof/Laws/PerInstr.lean ====
section
/-! SUPPORT. Statements made per command, one lemma per constructor: every command's fields are well formed (R86) and
are what its word splits into (R82). -/

namespace Sys2Proof.Laws.Fields

/-- R82, R86: the command's fields are well formed, and splitting its word gives them back. -/
def Statement (i : Instr) : Prop := i.wellFormed = true ∧ splitWord (encode i) = i.fields

theorem nop : Statement .nop := by unfold Statement; decide
theorem expand : Statement .expand := by unfold Statement; decide
theorem expandAdv : Statement .expandAdv := by unfold Statement; decide
theorem adler : Statement .adler := by unfold Statement; decide
theorem adlerAdv : Statement .adlerAdv := by unfold Statement; decide
theorem adlerInit : Statement .adlerInit := by unfold Statement; decide
theorem adlerInitAdv : Statement .adlerInitAdv := by unfold Statement; decide

end Sys2Proof.Laws.Fields
end

