-- ==== Sys2Proof/Laws/Step.lean ====
section
/-! SUPPORT. What a step can do, said once: a relation between states that each elementary change of the machine meets,
and that composes, holds between the states before and after every step. Invariants and frames of `step` follow from it
by giving one small goal per elementary change. -/

namespace Sys2Proof.Machine

/-- The elementary changes that a host write of a register is made of. -/
structure RegisterChanges (P : State → State → Prop) : Prop where
  refl : ∀ s, P s s
  command : ∀ i s t, s.fault = false → exec i s = .next t → P s t
  illegal : ∀ c s, s.fault = false → P s (raiseFault .illegalCmd c s)
  status : ∀ v s, P s (writeStatus v s)
  addr : ∀ v (s : State), P s { s with addr := v }
  dist : ∀ v (s : State), P s { s with dist := v }
  len : ∀ v (s : State), P s { s with len := v }
  acc : ∀ v (s : State), P s { s with acc := v }

/-- The elementary changes that a step is made of. -/
structure StepChanges (P : State → State → Prop) : Prop extends RegisterChanges P where
  trans : ∀ s t u, P s t → P t u → P s u
  host : ∀ v (s : State), P s { s with host := v }
  readData : ∀ v (s : State), P s { s with readData := v }
  memory : ∀ a bs (s : State), a + bs.length ≤ addressSpace → P s (hostWriteBytes a bs s)
  reset : ∀ s, P s (blockReset s)
  abandon : ∀ s n, (n = 0 ∨ (n = s.writeSpan ∧ s.expandLegal)) → P s (drawBytes s.start n s)

variable {P : State → State → Prop}

theorem RegisterChanges.writeReg (h : RegisterChanges P) {r : Reg} {v : Word64} {s t : State}
    (hw : writeReg r v s = .next t) : P s t := by
  rcases writeReg_cases r v s with
    ⟨-, e⟩ | ⟨-, e⟩ | ⟨-, e⟩ | ⟨-, e⟩ | ⟨-, e⟩ | ⟨-, e⟩ | ⟨-, e⟩ <;> rw [e] at hw
  · rcases issue_cases (v.setWidth 32) s with ⟨-, e⟩ | ⟨hf, -, e⟩ | ⟨hf, i, -, e⟩ <;> rw [e] at hw
    · cases hw; exact h.refl s
    · cases hw; exact h.illegal _ s hf
    · exact h.command i s t hf hw
  all_goals cases hw
  · exact h.status _ s
  · exact h.addr _ s
  · exact h.dist _ s
  · exact h.len _ s
  · exact h.acc _ s
  · exact h.refl s

theorem RegisterChanges.writeSlot (h : RegisterChanges P) {slot : Slot} {v : Word32} {s t : State}
    (hw : writeSlot slot v s = .next t) : P s t := by
  rcases writeSlot_cases slot v s with ⟨r, u, e⟩ | e <;> rw [e] at hw
  · exact h.writeReg hw
  · cases hw; exact h.refl s

/-- Every step that answers a next state is made of the elementary changes. -/
theorem StepChanges.step (h : StepChanges P) {s t : State} (hs : step s = .next t) : P s t := by
  unfold Sys2Proof.Machine.step at hs
  split at hs
  · cases hs; exact h.refl s
  · next op rest heq =>
    refine h.trans _ _ _ (h.host rest s) ?_
    generalize ({ s with host := rest } : State) = u at hs
    cases op with
    | wr r v => exact h.writeReg hs
    | rd r => simp only [hostStep] at hs; cases hs; exact h.readData _ u
    | busWrite a n v =>
      simp only [hostStep] at hs
      split at hs
      · rcases writeWindow_cases hs with rfl | hs | ⟨w, h1, h2⟩
        · exact h.refl _
        · exact h.writeSlot hs
        · exact h.trans _ _ _ (h.writeSlot h1) (h.writeSlot h2)
      · cases hs
    | busRead a n =>
      simp only [hostStep] at hs
      split at hs
      · cases hs; exact h.readData _ u
      · cases hs
    | mw a bs =>
      simp only [hostStep] at hs
      split at hs
      · next hle => cases hs; exact h.memory _ _ u hle
      · cases hs
    | mr a => simp only [hostStep] at hs; cases hs; exact h.readData _ u
    | reset => simp only [hostStep] at hs; cases hs; exact h.reset u
    | resetDuring c =>
      simp only [hostStep] at hs; cases hs
      exact h.trans _ _ _ (h.trans _ _ _ (h.abandon u _ (abandonedSpan_cases c u)) (h.reset _)) (h.host _ _)

end Sys2Proof.Machine
end

