-- ==== Sys2Proof/Tests/Slice0.lean ====
section
/-! SUPPORT. The model's own tests: ill-formed terms, decoding by words written out from the spec, one-step vectors of
95_test_vectors.md, and for each obligation with hypotheses a state and operands that meet them. -/

namespace Sys2Proof.Tests

open Sys2Proof Sys2Proof.Machine

/-! ### Well-formedness: one ill-formed term for each check -/

theorem test_wf_refuses_rsv : CmdFields.wellFormed ⟨1, false, false, 1⟩ = false := by decide
theorem test_wf_refuses_reserved_op : CmdFields.wellFormed ⟨3, false, false, 0⟩ = false := by decide
theorem test_wf_refuses_adv_on_nop : CmdFields.wellFormed ⟨0, true, false, 0⟩ = false := by decide
theorem test_wf_refuses_init_on_nop : CmdFields.wellFormed ⟨0, false, true, 0⟩ = false := by decide
theorem test_wf_refuses_init_on_expand : CmdFields.wellFormed ⟨1, false, true, 0⟩ = false := by decide
theorem test_wf_refuses_no_lanes : Impl.wellFormed ⟨.w16, true, 0, 0, []⟩ = false := by decide
theorem test_wf_refuses_too_many_lanes : Impl.wellFormed ⟨.w16, true, 5, 0, []⟩ = false := by decide
theorem test_wf_admits_sixteen_lanes : Impl.wellFormed ⟨.w64, true, 16, 0, []⟩ = true := by decide

/-! ### Decoding: R82's pattern, bit 31 on the left, and table T-D -/

theorem test_decode_nop : decode 0b00000000000000000000000000000000 = .instr .nop := by decide
theorem test_decode_expand : decode 0b00000000000000000000000000000001 = .instr .expand := by decide
theorem test_decode_expand_adv : decode 0b00000000000000000000000000010001 = .instr .expandAdv := by decide
theorem test_decode_adler : decode 0b00000000000000000000000000000010 = .instr .adler := by decide
theorem test_decode_adler_adv : decode 0b00000000000000000000000000010010 = .instr .adlerAdv := by decide
theorem test_decode_adler_init : decode 0b00000000000000000000000000100010 = .instr .adlerInit := by decide
theorem test_decode_adler_init_adv : decode 0b00000000000000000000000000110010 = .instr .adlerInitAdv := by decide
theorem test_decode_nop_with_adv : decode 0x00000010 = .illegal .advOnNop := by decide
theorem test_decode_nop_with_init : decode 0x00000020 = .illegal .initNotAdler := by decide
theorem test_decode_expand_with_init : decode 0x00000031 = .illegal .initNotAdler := by decide
theorem test_decode_reserved_op : decode 0x0000000F = .illegal .reservedOp := by decide
theorem test_decode_rsv_bit_6 : decode 0x00000041 = .illegal .reservedBits := by decide
theorem test_decode_rsv_bit_31 : decode 0x80000002 = .illegal .reservedBits := by decide
theorem test_decode_table_word : decodeTableWord 32 0x32 = some .adlerInitAdv := by decide

/-! ### States for the tests -/

/-- The setup of V-E2, V-A2 and P3: "abc" at 0x1000, `Accessible` on [0x1000, 0x1100), `backref 0x1003, 3, 7`. -/
def abc (w : Width) (masked : Bool) : State :=
  { State.reset with
    impl := ⟨w, masked, 1, 0x4000, [(0x1000, 0x1100)]⟩
    addr := 0x1003
    dist := 3
    len := 7
    mem := ⟨[(0x1000, 0x61), (0x1001, 0x62), (0x1002, 0x63)], []⟩ }

/-- The same memory, with ADDR at its start and LEN its length: an ADLER over "abc". -/
def abcSum : State := { abc .w16 true with addr := 0x1000, len := 3 }

/-- The state after an outcome, where it is a next state. -/
def after (r : Host.Outcome State Fault Refusal) : Option State :=
  match r with
  | .next s => some s
  | .fault _ => none
  | .refused _ => none

/-- The `n` bytes from `a` on. -/
def bytes (s : State) (a n : Nat) : List Byte := (List.range n).map fun k => s.mem.read (a + k)

/-! ### One-step vectors -/

/-- V-E2: "abc" repeated to length 7 yields "abcabca"; REGIME is HALF for W = 16 (R153). -/
theorem test_expand_abcabca :
    (after (exec .expand (abc .w16 false))).map
      (fun t => (bytes t 0x1003 7, (statusWord t).toNat, t.addr.toNat)) =
      some ([0x61, 0x62, 0x63, 0x61, 0x62, 0x63, 0x61], 0x300, 0x1003) := by decide +kernel

/-- R146, R150, R104 by hand: d = 2, L = 16, W = 16 ends in "c", touches no margin byte, and ADV advances ADDR by 16. -/
theorem test_expand_adv_without_margin :
    (after (exec .expandAdv { abc .w16 true with dist := 2, len := 16 })).map
      (fun t => (bytes t 0x1012 2, t.mem.drawn, t.addr.toNat, t.draws)) =
      some ([0x63, 0x00], [], 0x1013, 0) := by decide +kernel

/-- R150: the margin of a 7-byte run at W = 16 is the 9 addresses from 0x100A on, each with a draw of its own. -/
theorem test_expand_margin :
    (after (exec .expandAdv (abc .w16 true))).map (fun t => (t.mem.drawn, t.draws, t.addr.toNat)) =
      some ([(0x100A, 0), (0x100B, 1), (0x100C, 2), (0x100D, 3), (0x100E, 4), (0x100F, 5), (0x1010, 6), (0x1011, 7),
        (0x1012, 8)], 9, 0x100A) := by decide +kernel

/-- T-F1: LEN = 0 faults ZERO_LEN (R221). -/
theorem test_expand_zero_len :
    (after (exec .expand { abc .w16 true with len := 0 })).map (fun t => (statusWord t, t.fcmd)) =
      some (0x21, 0x01) := by decide +kernel

/-- T-F3: DIST = 0 faults ZERO_DIST, and ADDR stays although ADV = 1. -/
theorem test_expand_adv_zero_dist :
    (after (exec .expandAdv { abc .w16 true with dist := 0 })).map (fun t => (statusWord t, t.fcmd, t.addr)) =
      some (0x31, 0x11, 0x1003) := by decide +kernel

/-- V-A2, T-A2: "abc" from 1 gives 0x024D0127. -/
theorem test_adler_abc : (after (exec .adler abcSum)).map (fun t => t.acc) = some 0x024D0127 := by decide +kernel

/-- T-A26: with ADV, ADDR becomes 0x1003. -/
theorem test_adler_adv_abc :
    (after (exec .adlerAdv abcSum)).map (fun t => (t.acc, t.addr)) = some (0x024D0127, 0x1003) := by decide +kernel

/-- T-A25: INIT ignores ACC. -/
theorem test_adler_init_ignores_acc :
    (after (exec .adlerInit { abcSum with acc := 0xDEADBEEF })).map (fun t => t.acc) = some 0x024D0127 := by
  decide +kernel

/-- T-A22: INIT with n = 0 gives the identity. -/
theorem test_adler_init_adv_zero_length :
    (after (exec .adlerInitAdv { abcSum with acc := 0x12345678, len := 0 })).map (fun t => (t.acc, t.addr)) =
      some (1, 0x1000) := by decide +kernel

/-- T-A17: a non-canonical start. -/
theorem test_adler_noncanonical :
    (after (exec .adler { abcSum with acc := 0xFFFFFFFF })).map (fun t => t.acc) = some 0x02820134 := by decide +kernel

/-- T-F14: the null source wins over everything and ADDR becomes LEN. -/
theorem test_adler_adv_null_source :
    (after (exec .adlerAdv { abcSum with addr := 0, len := 0xFFFFFFFFFFFFFFFF, acc := 0x12345678 })).map
      (fun t => (t.acc, t.addr)) = some (1, 0xFFFFFFFFFFFFFFFF) := by decide +kernel

/-- T-F12: src + n past 2^64 faults RANGE. -/
theorem test_adler_range :
    (after (exec .adlerInitAdv { abcSum with addr := 0xFFFFFFFFFFFFFFFF, len := 2 })).map
      (fun t => (statusWord t, t.fcmd, t.acc)) = some (0x41, 0x32, 1) := by decide +kernel

/-- R103's example: from reset, NOP leaves STATUS = 0 and ACC = 1. -/
theorem test_nop_from_reset :
    (after (step (State.reset.withFetchWord 32 0))).map (fun t => (statusWord t, t.acc)) = some (0, 1) := by
  decide +kernel

/-- T-F18: an illegal word keeps REGIME and records itself. -/
theorem test_illegal_word :
    (after (step { abc .w16 true with regime := .half, host := [.wr .cmd 0x21] })).map
      (fun t => (statusWord t, t.fcmd, t.faultLog)) = some (0x311, 0x21, [⟨.illegalCmd, 0x21⟩]) := by decide +kernel

/-- T-REG6: a 32-bit write at offset 0x0C sets ADDR's high half. -/
theorem test_window_high_half :
    (after (step { abc .w16 true with addr := 0x1000, host := [.busWrite 0x400C 4 1] })).map (fun t => t.addr) =
      some 0x0000000100001000 := by decide +kernel

/-- T-REG8: a 64-bit read at offset 0x20 returns FCMD and ACC. -/
theorem test_window_pair_read :
    (after (step { abc .w16 true with acc := 0x024D0127, fcmd := 0x21, host := [.busRead 0x4020 8] })).map
      (fun t => t.readData) = some 0x00000021024D0127 := by decide +kernel

/-- T-REG11: a 64-bit write at offset 0 writes CMD, here ignored, and then STATUS. -/
theorem test_window_cmd_then_status :
    (after (step { abc .w16 true with
      fault := true, cause := .zeroLen, host := [.busWrite 0x4000 8 0x0000000100000000] })).map statusWord =
      some 0 := by decide +kernel

/-- T-REG1: CFG with W = 32 and masked access. -/
theorem test_cfg_word : cfgWord ⟨.w32, true, 1, 0, []⟩ = 0x00070105 := by decide

/-- T-C9: the HALF datapath at W = 16, d = 5, L = 23, through phases 0, 3, 1 (R149). -/
theorem test_half_path_phases : (List.range 6).map (phase 8 5) = [0, 3, 1, 4, 2, 0] := by decide

/-- T-C2: the half-width entry of d = 5 (R141). -/
theorem test_half_entry : tableEntry 8 5 = ⟨5, [0, 1, 2, 3, 4, 0, 1, 2], 3⟩ := by decide +kernel

/-- R129: at W = 1 a masked load of no byte returns no byte of memory, with masked access or without. -/
theorem test_scalar_masked_load_of_none :
    [true, false].map (fun masked => (maskedLoad masked 1 0x1000 0 ⟨(abc .w1 masked).mem, 4⟩).1) =
      [[.drawn 4], [.drawn 4]] := by decide +kernel

/-! ### Witnesses: states and operands that meet the hypotheses of each obligation -/

theorem witness_EveryOtherWordIsIllegal :
    (0x00000010 : Word32) ∉
        ([0x00000000, 0x00000001, 0x00000011, 0x00000002, 0x00000012, 0x00000022, 0x00000032] : List Word32) ∧
      (0x10 : Word64).setWidth 32 = (0x00000010 : Word32) ∧
      ({ abc .w16 true with host := [.wr .cmd 0x10] } : State).host = .wr .cmd 0x10 :: [] ∧
      ({ abc .w16 true with host := [.wr .cmd 0x10] } : State).fault = false := by decide

theorem witness_StepRunsTheDecodedCommand :
    ({ abc .w16 true with host := [.wr .cmd 0x11] } : State).host = .wr .cmd 0x11 :: [] ∧
      ({ abc .w16 true with host := [.busWrite 0x4000 4 0x11] } : State).host =
        .busWrite (abc .w16 true).impl.regBase 4 0x11 :: [] ∧
      (abc .w16 true).fault = false ∧ decode ((0x11 : Word64).setWidth 32) = .instr .expandAdv ∧
      decode ((0x11 : Word64).extractLsb' 0 32) = .instr .expandAdv ∧ decodeTableWord 32 0x11 = some .expandAdv := by
  decide

/-- A state with a pending fault and one host operation. -/
def faulted (op : HostOp) : State := { abc .w16 true with fault := true, cause := .range, host := [op] }

theorem witness_PendingFaultGatesCommands :
    (faulted (.wr .cmd 1)).host = .wr .cmd 1 :: [] ∧ (faulted (.wr .cmd 1)).fault = true ∧
      (faulted (.busWrite 0x4000 4 1)).host = .busWrite (faulted (.busWrite 0x4000 4 1)).impl.regBase 4 1 :: [] ∧
      ({ abc .w16 true with host := [.wr .status 1, .wr .cmd 1] } : State).host = [.wr .status 1, .wr .cmd 1] ∧
      (1 : Word64).getLsbD 0 = true ∧ decode ((1 : Word64).setWidth 32) = .instr .expand := by decide

theorem witness_PendingFaultGatesCommands_step : ∃ t, step (faulted (.wr .cmd 1)) = .next t := ⟨_, rfl⟩

theorem witness_IdleBlockKeepsItsState : State.reset.host = [] := rfl

theorem witness_NopChangesNothing :
    ({ abc .w16 true with host := [.wr .cmd 0] } : State).host = .wr .cmd 0 :: [] ∧
      (0 : Word64).setWidth 32 = encode .nop ∧
      (0x10 : Word32).extractLsb' 0 4 = 0 ∧ (0x10 : Word32) ≠ 0 := by decide

theorem expandLegal_abc (w : Width) (masked : Bool) : (abc w masked).expandLegal := by
  cases w <;> cases masked <;> decide +kernel

/-- EXPAND at the top of memory (T-F5): legal at W = 16 with out + roundup(L, W) = 2^64. -/
def top (l : Word64) : State :=
  { abc .w16 true with impl := ⟨.w16, true, 1, 0, [(0, 0x10000000000000000)]⟩, addr := 0xFFFFFFFFFFFFFFF0, dist := 1, len := l }

theorem expandLegal_top_one : (top 1).expandLegal := by decide +kernel

/-- The open corner of log 6: out + L = 2^64 is legal. -/
theorem expandLegal_top_sixteen : (top 16).expandLegal := by decide +kernel

theorem witness_ExpandWritesThePeriodicRun :
    isExpand .expand = true ∧ isExpand .expandAdv = true ∧ (abc .w16 true).expandLegal ∧
      advBit .expand = false ∧ advBit .expandAdv = true ∧ (abc .w16 true).start + (abc .w16 true).count < 2 ^ 64 :=
  ⟨by decide, by decide, expandLegal_abc .w16 true, by decide, by decide, by decide⟩

/-- Every EXPAND form completes from the same state. -/
theorem witness_expand_completes (i : Instr) (h : i = .expand ∨ i = .expandAdv) :
    isExpand i = true ∧ ∃ t, exec i (abc .w16 true) = .next t := by
  rcases h with rfl | rfl
  · exact ⟨by decide, _, rfl⟩
  · exact ⟨by decide, _, rfl⟩

theorem witness_ExpandEqualsSequentialCopy :
    isExpand .expand = true ∧ (abc .w16 true).expandLegal ∧ (∃ t, exec .expand (abc .w16 true) = .next t) ∧
      0x1003 < (abc .w16 true).start + (abc .w16 true).count :=
  ⟨by decide, expandLegal_abc .w16 true, ⟨_, rfl⟩, by decide⟩

theorem witness_ExpandFrame :
    (isExpand .expand = true ∧ advBit .expand = false ∧ (abc .w16 true).expandLegal ∧
      ∃ t, exec .expand (abc .w16 true) = .next t) ∧
    (¬ ({ abc .w16 true with len := 0 } : State).expandLegal ∧
      ∃ t, exec .expand { abc .w16 true with len := 0 } = .next t) :=
  ⟨⟨by decide, by decide, expandLegal_abc .w16 true, _, rfl⟩, by decide, _, rfl⟩

theorem witness_MarginBytesAreFreshDraws :
    isExpand .expand = true ∧ (abc .w16 true).expandLegal ∧ (∃ t, exec .expand (abc .w16 true) = .next t) ∧
      (abc .w16 true).count + 8 < (abc .w16 true).writeSpan ∧ ¬ (abc .w16 true).count + 9 < (abc .w16 true).writeSpan ∧
      (top 16).w ∣ (top 16).count :=
  ⟨by decide, expandLegal_abc .w16 true, ⟨_, rfl⟩, by decide, by decide, by decide⟩

theorem witness_RegimeFollowsDistanceAndWidth :
    1 ≤ 3 ∧ isExpand .expand = true ∧ (abc .w16 true).expandLegal ∧ (∃ t, exec .expand (abc .w16 true) = .next t) ∧
      regimeOf 1 .w1 = .wide ∧ regimeOf 1 .w16 = .bcast1 ∧ regimeOf 2 .w16 = .bcast2 ∧ regimeOf 7 .w16 = .half ∧
      regimeOf 8 .w16 = .fullRep ∧ regimeOf 15 .w16 = .fullRep ∧ regimeOf 16 .w16 = .wide :=
  ⟨by decide, by decide, expandLegal_abc .w16 true, ⟨_, rfl⟩, by decide, by decide, by decide, by decide, by decide,
    by decide, by decide⟩

theorem witness_ExpandIsChunkWidthIndependent :
    isExpand .expandAdv = true ∧ (abc .w16 true).expandLegal ∧
      ({ abc .w16 true with impl := { (abc .w16 true).impl with width := .w64, hasMasked := false } } :
        State).expandLegal ∧
      (∃ t, exec .expandAdv (abc .w16 true) = .next t) ∧
      ∃ t, exec .expandAdv { abc .w16 true with
        impl := { (abc .w16 true).impl with width := .w64, hasMasked := false } } = .next t :=
  ⟨by decide, expandLegal_abc .w16 true, expandLegal_abc .w64 false, ⟨_, rfl⟩, ⟨_, rfl⟩⟩

theorem witness_RepeatedExpandRewritesTheSameRun :
    (abc .w16 true).expandLegal ∧ ∃ t, exec .expand (abc .w16 true) = .next t :=
  ⟨expandLegal_abc .w16 true, _, rfl⟩

/-- The state after `expand.adv` from `abc`, with the operands of a second back-reference set. -/
def second : State :=
  { advanceIf true 0x1003 7 (expandEffect (abc .w16 true)) with dist := 1, len := 1 }

theorem witness_NextAdvancedExpandCoversTheMargin :
    (abc .w16 true).expandLegal ∧ (abc .w16 true).start + (abc .w16 true).count < 2 ^ 64 ∧
      exec .expandAdv (abc .w16 true) = .next (advanceIf true 0x1003 7 (expandEffect (abc .w16 true))) ∧
      second.expandLegal ∧ ∃ u, exec .expandAdv second = .next u :=
  ⟨expandLegal_abc .w16 true, by decide, rfl, by decide +kernel, _, rfl⟩

theorem witness_ExpandIgnoresTheAccumulator :
    isExpand .expandAdv = true ∧ ∃ t, exec .expandAdv (abc .w16 true) = .next t := ⟨by decide, _, rfl⟩

theorem witness_ExpandDatapathReachesTheClosedForm :
    0 < 23 ∧ 0 < 5 ∧ 5 ≤ 0x1040 ∧ 0x1040 < 0x1040 + 23 ∧
      0x1040 + roundup 23 (abc .w16 true).impl.width.bytes ≤ 0x1060 ∧ (abc .w16 true).impl.hasMasked = true := by
  decide

theorem witness_PhaseIsContinuous : 0 < 5 := by decide

theorem witness_TableEntriesReplicateThePattern : 3 ≤ 3 ∧ 3 < 8 ∧ 3 ≤ 15 ∧ 15 < 16 ∧ 7 < 8 := by decide

theorem witness_MaskedAccessTouchesExactlyNBytes :
    3 ≤ 16 ∧ 2 < 3 ∧ 3 ≤ (load 16 0x1000 (abc .w16 true).mem).length ∧
      (abc .w16 true).mem ≠ (abc .w16 true).mem.putRange 0x1003 (fun _ => .known 1) 1 ∧
      ∀ j < 3, (abc .w16 true).mem.cell (0x1000 + j) =
        ((abc .w16 true).mem.putRange 0x1003 (fun _ => .known 1) 1).cell (0x1000 + j) := by decide +kernel

/-- An empty masked load and store without masked access (R129). -/
theorem witness_MaskedAccessTouchesExactlyNBytes_empty :
    (false = true ∨ 0 = 0) ∧ 0 ≤ 1 ∧ 0 ≤ (load 1 0x1000 (abc .w1 false).mem).length := by decide

theorem witness_HalfChunkOpsArePrefixes :
    8 ≤ 16 ∧ 8 ≤ 8 ∧ (∀ q ∈ (tableEntry 16 5).pattern.take 8, q < 8) ∧
      (∀ j < 8, (abc .w16 true).mem.cell (0x1000 + j) =
        ((abc .w16 true).mem.putRange 0x1008 (fun _ => .known 1) 1).cell (0x1000 + j)) ∧
      (0x1000 ≤ 0x1007 ∧ 0x1007 < 0x1000 + 8) ∧ ¬ (0x1000 ≤ 0x1008 ∧ 0x1008 < 0x1000 + 8) := by decide +kernel

theorem witness_ScalarWidthIsTheScalarFallback : (abc .w1 false).impl.width = .w1 ∧ 0 < 3 ∧ 3 ≤ 0x1003 := by decide

theorem adlerLegal_abcSum : abcSum.adlerLegal := by decide +kernel

theorem witness_AdlerFoldsTheClosedForm :
    (∀ i ∈ [Instr.adler, .adlerAdv, .adlerInit, .adlerInitAdv], isAdler i = true) ∧ abcSum.adlerLegal ∧
      advBit .adler = false ∧ advBit .adlerInitAdv = true ∧ abcSum.start + abcSum.count < 2 ^ 64 :=
  ⟨by decide, adlerLegal_abcSum, by decide, by decide, by decide⟩

theorem witness_NullSourceGivesTheIdentity : isAdler .adlerAdv = true ∧ State.reset.addr = 0 := by decide

theorem witness_ZeroLengthKeepsTheAccumulator :
    isAdler .adlerAdv = true ∧ ({ abcSum with len := 0 } : State).addr ≠ 0 ∧
      ({ abcSum with len := 0 } : State).len = 0 := by decide

theorem witness_AdlerFrame :
    isAdler .adler = true ∧ advBit .adler = false ∧
      (∃ t, exec .adler abcSum = .next t ∧ t.faultLog = abcSum.faultLog) ∧
      ∃ t, exec .adler { abcSum with addr := 0xFFFFFFFFFFFFFFFF } = .next t ∧ t.faultLog ≠ abcSum.faultLog :=
  ⟨by decide, by decide, ⟨_, rfl, by decide +kernel⟩, ⟨_, rfl, by decide +kernel⟩⟩

theorem witness_AdlerLeavesCanonicalFields :
    isAdler .adler = true ∧ State.reset.start = 0 ∧ abcSum.adlerLegal ∧ ∃ t, exec .adler abcSum = .next t :=
  ⟨by decide, by decide, adlerLegal_abcSum, _, rfl⟩

theorem witness_AdlerEqualsTheSerialRecurrence :
    isAdler .adlerInit = true ∧ abcSum.adlerLegal ∧ ∃ t, exec .adlerInit abcSum = .next t :=
  ⟨by decide, adlerLegal_abcSum, _, rfl⟩

theorem witness_AdlerIsAdditive :
    isAdler .adlerInit = true ∧ isAdler .adlerAdv = true ∧ isAdler .adlerInitAdv = true ∧
      initBit .adlerAdv = false ∧ initBit .adlerInitAdv = initBit .adlerInit ∧
      0 < abcSum.start ∧ abcSum.start + (1 : Word64).toNat + (2 : Word64).toNat ≤ 2 ^ 64 ∧
      rangeAccessible abcSum.impl abcSum.start ((1 : Word64).toNat + (2 : Word64).toNat) = true ∧
      (0x1001 : Word64) ≠ 0 ∧ ((2 : Word64) ≠ 0 → (0x1001 : Word64).toNat = abcSum.start + (1 : Word64).toNat) := by
  decide +kernel

/-- An empty first part. -/
theorem witness_AdlerIsAdditive_firstEmpty :
    abcSum.start + (0 : Word64).toNat + (3 : Word64).toNat ≤ 2 ^ 64 ∧
      rangeAccessible abcSum.impl abcSum.start ((0 : Word64).toNat + (3 : Word64).toNat) = true ∧
      ((3 : Word64) ≠ 0 → (0x1000 : Word64).toNat = abcSum.start + (0 : Word64).toNat) := by decide +kernel

/-- A first part that ends at 2^64, so the second is empty and its source is any address but 0. -/
theorem witness_AdlerIsAdditive_secondEmpty :
    0 < (top 16).start ∧ (top 16).start + (16 : Word64).toNat + (0 : Word64).toNat = 2 ^ 64 ∧
      rangeAccessible (top 16).impl (top 16).start ((16 : Word64).toNat + (0 : Word64).toNat) = true ∧
      (1 : Word64) ≠ 0 ∧ ((0 : Word64) ≠ 0 → (1 : Word64).toNat = (top 16).start + (16 : Word64).toNat) := by
  decide +kernel

theorem witness_AdlerIsChunkWidthIndependent :
    isAdler .adler = true ∧ abcSum.adlerLegal ∧
      ({ abcSum with impl := (abc .w64 false).impl } : State).adlerLegal ∧
      (∃ t, exec .adler abcSum = .next t) ∧ (∃ t, exec .adler { abcSum with impl := (abc .w64 false).impl } = .next t) ∧
      (abc .w16 true).impl.wellFormed = true ∧ (abc .w64 false).impl.wellFormed = true ∧ (∀ k < 3, 255 ≤ 255) ∧ 1 ≤ 3 :=
  ⟨by decide, adlerLegal_abcSum, by decide +kernel, ⟨_, rfl⟩, ⟨_, rfl⟩, by decide, by decide, fun _ _ => le_refl _,
    by decide⟩

theorem witness_AdlerDatapathReachesTheClosedForm :
    (abc .w64 true).impl.wellFormed = true ∧ (∀ k < 5553, (fun _ => 255) k ≤ 255) ∧ 1 ≤ 5553 :=
  ⟨by decide, fun _ _ => le_refl _, by decide⟩

theorem witness_NmaxIsTheLargestSafeBlock :
    65535 ≤ 65535 ∧ (∀ j < 5552, (fun _ : Nat => 255) j ≤ 255) := ⟨le_refl _, fun _ _ => le_refl _⟩

theorem witness_InitStartsFromTheIdentity :
    (0x20 : Word32).getLsbD 5 = true ∧ (0x20 : Word32).extractLsb' 0 4 ≠ 2 ∧ State.reset.fault = false ∧
      State.reset.start = 0 ∧ ({ abcSum with len := 0 } : State).count = 0 ∧ abcSum.adlerLegal :=
  ⟨by decide, by decide, by decide, by decide, by decide, adlerLegal_abcSum⟩

theorem witness_AdlerAndNopIgnoreDist :
    isExpand .nop = false ∧ isExpand .adler = false ∧ (∃ t, exec .nop abcSum = .next t) ∧
      ∃ t, exec .adler abcSum = .next t := ⟨by decide, by decide, ⟨_, rfl⟩, ⟨_, rfl⟩⟩

theorem witness_FirstFailingCheckIsReported_illegal :
    State.reset.fault = false ∧ decode 0x10 = .illegal .advOnNop ∧ (faulted .reset).fault = true := by decide

theorem witness_FirstFailingCheckIsReported_zeroLen :
    isExpand .expand = true ∧ State.reset.fault = false ∧ State.reset.len = 0 := by decide

theorem witness_FirstFailingCheckIsReported_zeroDist :
    ({ abc .w16 true with dist := 0 } : State).len ≠ 0 ∧ ({ abc .w16 true with dist := 0 } : State).dist = 0 := by decide

/-- T-F4 (d > out) and T-F6 (past 2^64 at W = 32). -/
theorem witness_FirstFailingCheckIsReported_range :
    (({ abc .w16 true with addr := 2, len := 1 } : State).start < ({ abc .w16 true with addr := 2, len := 1 } : State).distance) ∧
      2 ^ 64 < (top 1).start + roundup (top 1).count 32 := by decide

/-- T-F11: the footprint starts at 0x0FFF. -/
theorem witness_FirstFailingCheckIsReported_access :
    let s : State := { abc .w16 true with dist := 4, len := 1 }
    s.len ≠ 0 ∧ s.dist ≠ 0 ∧ ¬ (s.start < s.distance ∨ 2 ^ 64 < s.start + roundup s.count s.w) ∧
      ∃ a, s.start - s.distance ≤ a ∧ a < s.start + roundup s.count s.w ∧ s.impl.isAccessible a = false :=
  ⟨by decide, by decide, by decide, 0x0FFF, by decide, by decide, by decide⟩

theorem witness_FirstFailingCheckIsReported_pass :
    let s := abc .w16 true
    s.len ≠ 0 ∧ s.dist ≠ 0 ∧ ¬ (s.start < s.distance ∨ 2 ^ 64 < s.start + roundup s.count s.w) ∧
      ∀ a, s.start - s.distance ≤ a → a < s.start + roundup s.count s.w → s.impl.isAccessible a = true := by
  refine ⟨by decide, by decide, by decide, fun a h1 h2 => ?_⟩
  have h := (rangeAccessible_iff _ _ _).mp (expandLegal_abc .w16 true).2.2.2.2
  exact h a h1 (by
    have e : (abc .w16 true).start - (abc .w16 true).distance +
        ((abc .w16 true).distance + (abc .w16 true).writeSpan) =
        (abc .w16 true).start + roundup (abc .w16 true).count (abc .w16 true).w := by decide
    rw [e]; exact h2)

/-- T-F12, T-F13: ADLER's range and access clauses. -/
theorem witness_FirstFailingCheckIsReported_adler :
    let s : State := { abcSum with addr := 0xFFFFFFFFFFFFFFFF, len := 2 }
    let u : State := { abcSum with addr := 0xFFFFFFFFFFFFFFFF, len := 1 }
    (isAdler .adler = true ∧ s.fault = false ∧ s.addr ≠ 0 ∧ s.len ≠ 0 ∧ 2 ^ 64 < s.start + s.count) ∧
      (u.addr ≠ 0 ∧ u.len ≠ 0 ∧ u.start + u.count ≤ 2 ^ 64 ∧
        ∃ a, u.start ≤ a ∧ a < u.start + u.count ∧ u.impl.isAccessible a = false) :=
  ⟨by decide, by decide, by decide, by decide, 0xFFFFFFFFFFFFFFFF, by decide, by decide, by decide⟩

theorem witness_FirstFailingCheckIsReported_adlerPass :
    abcSum.addr ≠ 0 ∧ abcSum.len ≠ 0 ∧ abcSum.start + abcSum.count ≤ 2 ^ 64 ∧
      ∀ a, abcSum.start ≤ a → a < abcSum.start + abcSum.count → abcSum.impl.isAccessible a = true :=
  ⟨by decide, by decide, by decide, (rangeAccessible_iff _ _ _).mp adlerLegal_abcSum.2.2.2⟩

theorem witness_FaultsArePreciseAndRecordTheWord :
    ∃ t, issue 1 State.reset = .next t ∧ t.faultLog ≠ State.reset.faultLog := ⟨_, rfl, by decide +kernel⟩

theorem witness_WritingOneToStatusClearsTheFault :
    (faulted (.wr .status 1)).host = .wr .status 1 :: [] ∧ (1 : Word64).getLsbD 0 = true ∧
      (faulted (.wr .status 0xFFFFFFFE)).host = .wr .status 0xFFFFFFFE :: [] ∧
      (0xFFFFFFFE : Word64).getLsbD 0 = false := by decide

theorem witness_OnlyFaultsSetFaultAndOnlyExpandSetsRegime :
    (∃ t, exec .expand State.reset = .next t ∧ t.fault ≠ State.reset.fault) ∧
      (∃ t, exec .expand (abc .w16 true) = .next t ∧ t.regime ≠ (abc .w16 true).regime) ∧
      ∃ t, exec .adler abcSum = .next t ∧ isExpand .adler = false ∧ t.faultLog = abcSum.faultLog :=
  ⟨⟨_, rfl, by decide +kernel⟩, ⟨_, rfl, by decide +kernel⟩, ⟨_, rfl, by decide, by decide +kernel⟩⟩

theorem witness_OnlyCompletedAdvMovesAddr :
    ∃ t, exec .expandAdv (abc .w16 true) = .next t ∧ t.addr ≠ (abc .w16 true).addr ∧ advBit .expandAdv = true ∧
      t.faultLog = (abc .w16 true).faultLog ∧ (abc .w16 true).start + (abc .w16 true).count < 2 ^ 64 :=
  ⟨_, rfl, by decide +kernel, by decide, by decide +kernel, by decide⟩

theorem witness_ResetLeavesTheSpecValues : (faulted .reset).host = .reset :: [] := rfl

theorem witness_CfgReportsTheParameters :
    (faulted (.wr .cfg 0x12345678)).host = .wr .cfg 0x12345678 :: [] ∧
      ∃ t, step (faulted (.wr .cfg 0x12345678)) = .next t := ⟨rfl, _, rfl⟩

theorem witness_RegisterWritesAreNotGated :
    (faulted (.wr .addr 5)).host = .wr .addr 5 :: [] ∧ (faulted (.wr .dist 5)).host = .wr .dist 5 :: [] ∧
      (faulted (.wr .len 5)).host = .wr .len 5 :: [] ∧ (faulted (.wr .acc 5)).host = .wr .acc 5 :: [] ∧
      (faulted (.wr .fcmd 5)).host = .wr .fcmd 5 :: [] ∧ (faulted (.wr .cfg 5)).host = .wr .cfg 5 :: [] := by decide

theorem witness_ReadsHaveNoSideEffect :
    (faulted (.rd .status)).host = .rd .status :: [] ∧ (faulted (.busRead 0x4000 4)).host = .busRead 0x4000 4 :: [] ∧
      (faulted (.mr 0x1000)).host = .mr 0x1000 :: [] ∧ ∃ t, step (faulted (.busRead 0x4000 4)) = .next t :=
  ⟨rfl, rfl, rfl, _, rfl⟩

theorem witness_WindowAccessesFollowTheirWidth :
    (0x28, Reg.cfg) ∈ [(0x00, Reg.cmd), (0x04, .status), (0x20, .acc), (0x24, .fcmd), (0x28, .cfg)] ∧
      (0x08, Reg.addr) ∈ [(0x08, Reg.addr), (0x10, .dist), (0x18, .len)] ∧ 0x28 ∈ [0x00, 0x20, 0x28] ∧
      ¬ (2 = 4 ∨ 2 = 8) ∧ 0x0A < 64 ∧ 0x0A % 4 ≠ 0 ∧ 0x2C < 64 ∧ 0x2C ≤ 0x2C ∧ 0x30 ≤ 0x30 ∧ 0x30 < 64 ∧
      0x04 % 8 ≠ 0 := by decide

theorem witness_BusAccessesReachTheWindow :
    0 < 64 ∧ 63 < 64 ∧
      (faulted (.busWrite 0x403C 4 0)).host =
        .busWrite ((faulted .reset).impl.regBase + BitVec.ofNat 64 0x3C) 4 0 :: [] ∧
      (faulted (.busRead 0x4004 4)).host = .busRead ((faulted .reset).impl.regBase + BitVec.ofNat 64 4) 4 :: [] ∧
      64 ≤ ((0x4040 : Word64) - (faulted .reset).impl.regBase).toNat ∧
      64 ≤ ((0x3FFF : Word64) - (faulted .reset).impl.regBase).toNat ∧
      (faulted (.busRead 0x4040 4)).host = .busRead 0x4040 4 :: [] := by decide

theorem witness_HostMemoryWriteStoresItsBytes :
    (faulted (.mw 0xFFFFFFFFFFFFFFFF [1])).host = .mw 0xFFFFFFFFFFFFFFFF [1] :: [] ∧
      (0xFFFFFFFFFFFFFFFF : Word64).toNat + [(1 : Byte)].length ≤ 2 ^ 64 ∧
      2 ^ 64 < (0xFFFFFFFFFFFFFFFF : Word64).toNat + [(1 : Byte), 2].length := by decide

theorem witness_ResetDuringCommandAbandonsIt :
    ({ abc .w16 true with host := [.resetDuring 0x11] } : State).host = .resetDuring 0x11 :: [] ∧
      decode 0x11 = .instr .expandAdv ∧ isExpand .expandAdv = true ∧ (abc .w16 true).fault = false ∧
      ({ abc .w16 true with host := [.resetDuring 0x11] } : State).expandLegal ∧ (faulted .reset).fault = true ∧
      ¬ ({ abc .w16 true with len := 0 } : State).expandLegal ∧ isAdler .adler = true ∧
      decode 0x10 = .illegal .advOnNop :=
  ⟨rfl, by decide, by decide, by decide, expandLegal_abc .w16 true, by decide, by decide, by decide, by decide⟩

theorem witness_EveryStepKeepsTheInvariant :
    ({ abc .w16 true with host := [.wr .cmd 0x11] } : State).Inv = true ∧
      ∃ t, step { abc .w16 true with host := [.wr .cmd 0x11] } = .next t := ⟨by decide +kernel, _, rfl⟩

theorem witness_StepsKeepTheParameters : ∃ t, step (faulted .reset) = .next t := ⟨_, rfl⟩

theorem witness_CanonicalMemoriesAreEqualData :
    (abc .w16 true).mem.wf = true ∧ (abc .w64 false).mem.wf = true ∧
      ∀ a, (abc .w16 true).mem.cell a = (abc .w64 false).mem.cell a := ⟨by decide, by decide, fun _ => rfl⟩

end Sys2Proof.Tests
end

