-- ==== Sys2Proof/Proofs/Parameters.lean ====
section
/-! PROOF. No step changes the implementation's parameters: each elementary change of a step keeps them. -/

namespace Sys2Proof.Machine

/-- R102, R224: the next state of a checked command is its effect where the checks pass, else the fault's record. -/
theorem checked_next_cases {i : Instr} {c : Option Cause} {f : State → State} {s t : State}
    (h : checked i c f s = .next t) :
    (c = none ∧ t = f s) ∨ ∃ k, c = some k ∧ t = raiseFault k (encode i) s := by
  obtain ⟨u, hu, hcases⟩ := checked_eq i c f s
  rw [hu] at h
  cases h
  exact hcases

/-- A checked command keeps the parameters where its effect does: the fault's record holds none of them. -/
theorem checked_keeps_impl {i : Instr} {c : Option Cause} {f : State → State} {s t : State}
    (hf : (f s).impl = s.impl) (h : checked i c f s = .next t) : t.impl = s.impl := by
  obtain ⟨-, rfl⟩ | ⟨k, -, rfl⟩ := checked_next_cases h
  · exact hf
  · exact raiseFault_impl k _ s

theorem exec_keeps_impl {i : Instr} {s t : State} (h : exec i s = .next t) : t.impl = s.impl := by
  obtain ⟨-, e⟩ | ⟨-, e⟩ | ⟨-, e⟩ := exec_cases i s <;> rw [e] at h
  · cases h; rfl
  · exact checked_keeps_impl (by simp) h
  · exact checked_keeps_impl (by simp) h

/-- R5: every elementary change of a step keeps the parameters. -/
theorem stepChanges_keep_impl : StepChanges (fun s t => t.impl = s.impl) where
  refl _ := rfl
  trans _ _ _ hst htu := htu.trans hst
  command _ _ _ _ h := exec_keeps_impl h
  illegal c s _ := raiseFault_impl .illegalCmd c s
  status := writeStatus_impl
  addr _ _ := rfl
  dist _ _ := rfl
  len _ _ := rfl
  acc _ _ := rfl
  host _ _ := rfl
  readData _ _ := rfl
  memory a bs s _ := hostWriteBytes_impl a bs s
  reset := blockReset_impl
  abandon s n _ := drawBytes_impl s.start n s

/-- Settles O52: a step is made of elementary changes, and each of them keeps the parameters. -/
theorem stepsKeepTheParameters : Obligations.StepsKeepTheParameters := by
  unfold Obligations.StepsKeepTheParameters
  intro s t h
  exact stepChanges_keep_impl.step h

end Sys2Proof.Machine
end

section
/-! PROOF. What a command that answered did, said once for every command; and that no step breaks the machine's
invariant. -/

namespace Sys2Proof.Machine

/-- R220: a failed check of EXPAND names a cause. -/
theorem checkExpand_some_ne_none {s : State} {k : Cause} (h : checkExpand s = some k) : k ≠ .none := by
  unfold checkExpand at h
  split_ifs at h <;> cases h <;> decide

/-- R220: a failed check of ADLER names a cause. -/
theorem checkAdler_some_ne_none {s : State} {k : Cause} (h : checkAdler s = some k) : k ≠ .none := by
  unfold checkAdler at h
  split_ifs at h <;> cases h <;> decide

/-- R102, R103: what a command can have done: taken a fault with a cause, done nothing as NOP, or run the whole effect
of an EXPAND or an ADLER whose checks passed. -/
theorem exec_next_cases {i : Instr} {s t : State} (h : exec i s = .next t) :
    (∃ k, k ≠ .none ∧ t = raiseFault k (encode i) s) ∨
    (i = .nop ∧ t = s) ∨
    (isExpand i = true ∧ s.expandLegal ∧ t = advanceIf (advBit i) s.start s.count (expandEffect s)) ∨
    (isAdler i = true ∧
      t = advanceIf (advBit i) s.start s.count { s with acc := adlerResult (initBit i) s }) := by
  obtain ⟨hi, e⟩ | ⟨hi, e⟩ | ⟨hi, e⟩ := exec_cases i s <;> rw [e] at h
  · cases h; exact .inr (.inl ⟨hi, rfl⟩)
  · obtain ⟨hc, ht⟩ | ⟨k, hk, ht⟩ := checked_next_cases h
    · exact .inr (.inr (.inl ⟨hi, (checkExpand_none_iff s).mp hc, ht⟩))
    · exact .inl ⟨k, checkExpand_some_ne_none hk, ht⟩
  · obtain ⟨-, ht⟩ | ⟨k, hk, ht⟩ := checked_next_cases h
    · exact .inr (.inr (.inr ⟨hi, ht⟩))
    · exact .inl ⟨k, checkAdler_some_ne_none hk, ht⟩

/-! ### The invariant -/

/-- The parts of the invariant, as propositions. -/
theorem State.inv_iff (s : State) :
    s.Inv = true ↔ s.mem.wf = true ∧ s.mem.drawnBelow s.draws = true ∧ (s.fault = true ↔ s.cause ≠ .none) ∧
      (s.fault = true → s.faultLog.head? = some ⟨s.cause, s.fcmd⟩) := by
  unfold State.Inv
  cases s.fault <;> simp [and_assoc]

/-- R225: a fault's record is consistent, whatever the pending fault was. -/
theorem raiseFault_keeps_inv {k : Cause} (hk : k ≠ .none) (c : Word32) {s : State} (h : s.Inv = true) :
    (raiseFault k c s).Inv = true := by
  rw [State.inv_iff] at h ⊢
  obtain ⟨hwf, hdrawn, -, -⟩ := h
  exact ⟨hwf, hdrawn, by simp [hk], by simp⟩

/-- Where no fault is pending and CAUSE is 0, the invariant speaks of memory only. -/
theorem clearFault_keeps_inv {s t : State} (h : s.Inv = true) (hmem : t.mem = s.mem) (hdraws : t.draws = s.draws)
    (hfault : t.fault = false) (hcause : t.cause = .none) : t.Inv = true := by
  rw [State.inv_iff] at h ⊢
  obtain ⟨hwf, hdrawn, -, -⟩ := h
  exact ⟨hmem ▸ hwf, by rw [hmem, hdraws]; exact hdrawn, by simp [hfault, hcause], by simp [hfault]⟩

theorem writeStatus_keeps_inv (v : Word32) {s : State} (h : s.Inv = true) : (writeStatus v s).Inv = true := by
  unfold writeStatus
  split_ifs
  · exact clearFault_keeps_inv h rfl rfl rfl rfl
  · exact h

/-- More draws taken: those that memory holds are still among them. -/
theorem addDraws_keeps_inv (n : Nat) {s : State} (h : s.Inv = true) :
    ({ s with draws := s.draws + n } : State).Inv = true := by
  rw [State.inv_iff] at h ⊢
  obtain ⟨hwf, hdrawn, hcause, hlog⟩ := h
  exact ⟨hwf, Memory.drawnBelow_mono hdrawn (Nat.le_add_right _ n), hcause, hlog⟩

/-- R8, R38: a run of bytes written inside the address space, none of them a draw still to come. -/
theorem putRange_keeps_inv {a n : Nat} {v : Nat → MemByte} {s : State} (ha : a + n ≤ addressSpace)
    (hv : ∀ j < n, (v j).below s.draws) (h : s.Inv = true) :
    ({ s with mem := s.mem.putRange a v n } : State).Inv = true := by
  rw [State.inv_iff] at h ⊢
  obtain ⟨hwf, hdrawn, hcause, hlog⟩ := h
  exact ⟨Memory.wf_putRange hwf ha v, Memory.drawnBelow_putRange hdrawn hv, hcause, hlog⟩

/-- R150: the draws are taken first, and the bytes written then hold no other. -/
theorem drawBytes_keeps_inv {a n : Nat} {s : State} (ha : a + n ≤ addressSpace) (h : s.Inv = true) :
    (drawBytes a n s).Inv = true :=
  putRange_keeps_inv (s := { s with draws := s.draws + n }) ha (fun _ hj => Nat.add_lt_add_left hj s.draws)
    (addDraws_keeps_inv n h)

theorem hostWriteBytes_keeps_inv {a : Nat} {bs : List Byte} {s : State} (ha : a + bs.length ≤ addressSpace)
    (h : s.Inv = true) : (hostWriteBytes a bs s).Inv = true :=
  putRange_keeps_inv ha (fun _ _ => trivial) h

/-- R146, R150: the run copies bytes that memory held, and the margin takes new draws. -/
theorem expandEffect_keeps_inv {s : State} (hlegal : s.expandLegal) (h : s.Inv = true) :
    (expandEffect s).Inv = true := by
  obtain ⟨-, -, -, hspace, -⟩ := hlegal
  have hspan := count_le_writeSpan s
  obtain ⟨-, hdrawn, -, -⟩ := (State.inv_iff s).mp h
  have hran : ({ s with mem := writeRun s.start s.distance s.count s.mem } : State).Inv = true :=
    putRange_keeps_inv (by omega) (fun _ _ => Memory.cell_below hdrawn _) h
  exact drawBytes_keeps_inv (a := s.start + s.count) (n := s.writeSpan - s.count) (by omega) hran

theorem advanceIf_keeps_inv (adv : Bool) (a n : Nat) {s : State} (h : s.Inv = true) :
    (advanceIf adv a n s).Inv = true := by
  unfold advanceIf advance
  split_ifs
  · exact h
  · exact addDraws_keeps_inv 1 h
  · exact h

theorem exec_keeps_inv {i : Instr} {s t : State} (hexec : exec i s = .next t) (h : s.Inv = true) : t.Inv = true := by
  obtain ⟨k, hk, rfl⟩ | ⟨-, rfl⟩ | ⟨-, hlegal, rfl⟩ | ⟨-, rfl⟩ := exec_next_cases hexec
  · exact raiseFault_keeps_inv hk _ h
  · exact h
  · exact advanceIf_keeps_inv _ _ _ (expandEffect_keeps_inv hlegal h)
  · exact advanceIf_keeps_inv _ _ _ h

/-- An abandoned command's footprint is empty, or a legal EXPAND's: it lies inside the address space (R262). -/
theorem start_add_abandoned_le {s : State} {n : Nat} (h : n = 0 ∨ (n = s.writeSpan ∧ s.expandLegal)) :
    s.start + n ≤ addressSpace := by
  obtain rfl | ⟨rfl, -, -, -, hspace, -⟩ := h
  · exact s.addr.isLt.le
  · exact hspace

/-- Every elementary change of a step keeps the invariant. -/
theorem stepChanges_keep_inv : StepChanges (fun s t => s.Inv = true → t.Inv = true) where
  refl _ h := h
  trans _ _ _ hst htu h := htu (hst h)
  command _ _ _ _ hexec := exec_keeps_inv hexec
  illegal c _ _ := raiseFault_keeps_inv (by decide) c
  status v _ := writeStatus_keeps_inv v
  addr _ _ h := h
  dist _ _ h := h
  len _ _ h := h
  acc _ _ h := h
  host _ _ h := h
  readData _ _ h := h
  memory _ _ _ ha := hostWriteBytes_keeps_inv ha
  reset _ h := clearFault_keeps_inv h rfl rfl rfl rfl
  abandon _ _ hn := drawBytes_keeps_inv (start_add_abandoned_le hn)

/-- Settles O50: a step is made of elementary changes, and each of them keeps the invariant. -/
theorem everyStepKeepsTheInvariant : Obligations.EveryStepKeepsTheInvariant := by
  unfold Obligations.EveryStepKeepsTheInvariant
  intro s t h hstep
  exact stepChanges_keep_inv.step hstep h

end Sys2Proof.Machine
end

section
/-! PROOF. What the commands write and read of the registers: DIST (R22), the fields of STATUS (R26) and ADDR (R21,
R104). -/

namespace Sys2Proof.Machine

/-! ### DIST -/

/-- R22: no command writes DIST. -/
theorem exec_keeps_dist {i : Instr} {s t : State} (h : exec i s = .next t) : t.dist = s.dist := by
  obtain ⟨k, -, rfl⟩ | ⟨-, rfl⟩ | ⟨-, -, rfl⟩ | ⟨-, rfl⟩ := exec_next_cases h <;> simp

/-- R192: every ADLER is one command, with its two bits as parameters. -/
theorem exec_of_isAdler {i : Instr} (hi : isAdler i = true) (s : State) :
    exec i s = adlerCommand i (advBit i) (initBit i) s := by
  cases i with
  | nop | expand | expandAdv => cases hi
  | adler | adlerAdv | adlerInit | adlerInitAdv => rfl

theorem advanceIf_setDist (adv : Bool) (a n : Nat) (d : Word64) (s : State) :
    advanceIf adv a n { s with dist := d } = { advanceIf adv a n s with dist := d } := by
  unfold advanceIf advance
  split_ifs <;> rfl

/-- A checked command whose check and effect do not read DIST carries a change of DIST through. -/
theorem checked_setDist {i : Instr} {c : Option Cause} {f : State → State} {s t : State} {d : Word64}
    (hf : f { s with dist := d } = { f s with dist := d }) (h : checked i c f s = .next t) :
    checked i c f { s with dist := d } = .next { t with dist := d } := by
  obtain ⟨rfl, rfl⟩ | ⟨k, rfl, rfl⟩ := checked_next_cases h
  · exact congrArg Host.Outcome.next hf
  · rfl

/-- Settles O35: ADLER's checks, its fold and its write-back read the state without DIST, and NOP reads nothing. -/
theorem adlerAndNopIgnoreDist : Obligations.AdlerAndNopIgnoreDist := by
  unfold Obligations.AdlerAndNopIgnoreDist
  intro i s t d hi h
  refine ⟨exec_keeps_dist h, ?_⟩
  obtain ⟨rfl, e⟩ | ⟨he, -⟩ | ⟨ha, -⟩ := exec_cases i s
  · cases e.symm.trans h; rfl
  · simp [hi] at he
  · rw [exec_of_isAdler ha] at h ⊢
    exact checked_setDist (advanceIf_setDist _ _ _ d { s with acc := adlerResult (initBit i) s }) h

/-! ### STATUS -/

/-- Settles O39: a fault's record is the only write of FAULT, CAUSE and FCMD, and EXPAND's effect the only one of
REGIME. -/
theorem onlyFaultsSetFaultAndOnlyExpandSetsRegime : Obligations.OnlyFaultsSetFaultAndOnlyExpandSetsRegime := by
  unfold Obligations.OnlyFaultsSetFaultAndOnlyExpandSetsRegime
  intro i s t h
  obtain ⟨k, -, rfl⟩ | ⟨-, rfl⟩ | ⟨hi, hlegal, rfl⟩ | ⟨-, rfl⟩ := exec_next_cases h
  · simp
  · simp
  · exact ⟨by simp, fun _ => ⟨hi, hlegal, by simp⟩, by simp [hi]⟩
  · simp

/-! ### ADDR -/

/-- R7, R104: below 2^64 the integer sum ADDR + LEN is the sum of the registers. -/
theorem ofNat_start_add_count (s : State) : BitVec.ofNat 64 (s.start + s.count) = s.addr + s.len := by
  simp [State.start, State.count, BitVec.ofNat_add]

/-- R104: what the write-back does to ADDR after an effect that left it. -/
theorem advanceIf_moves_addr {adv : Bool} {s u : State} (hu : u.addr = s.addr) :
    ((advanceIf adv s.start s.count u).addr ≠ s.addr → adv = true) ∧
      (adv = true → s.start + s.count < 2 ^ 64 → (advanceIf adv s.start s.count u).addr = s.addr + s.len) := by
  rw [advanceIf_addr, ofNat_start_add_count, hu]
  constructor
  · intro hne
    by_contra hadv
    exact hne (if_neg hadv)
  · intro hadv hlt
    exact (if_pos hadv).trans (if_pos hlt)

/-- Settles O40: only the write-back of a completed command writes ADDR; a fault leaves it and lengthens the history. -/
theorem onlyCompletedAdvMovesAddr : Obligations.OnlyCompletedAdvMovesAddr := by
  unfold Obligations.OnlyCompletedAdvMovesAddr
  intro i s t h
  obtain ⟨k, -, rfl⟩ | ⟨rfl, rfl⟩ | ⟨-, -, rfl⟩ | ⟨-, rfl⟩ := exec_next_cases h
  · simp
  · exact ⟨fun hne => absurd rfl hne, fun hadv => absurd hadv (by decide)⟩
  · obtain ⟨hmoved, hsum⟩ := advanceIf_moves_addr (adv := advBit i) (expandEffect_addr s)
    exact ⟨fun hne => ⟨hmoved hne, by simp⟩, fun hadv _ => hsum hadv⟩
  · obtain ⟨hmoved, hsum⟩ :=
      advanceIf_moves_addr (adv := advBit i) (s := s) (u := { s with acc := adlerResult (initBit i) s }) rfl
    exact ⟨fun hne => ⟨hmoved hne, by simp⟩, fun hadv _ => hsum hadv⟩

end Sys2Proof.Machine
end

section
/-! PROOF. What the host reads of STATUS (R26) and CFG (R31), as numbers whose digits are the fields, and what its
writes to them do (R29, R31). -/

namespace Sys2Proof.Machine

/-! ### Reads -/

/-- R7: the fields of a concatenation, as the digits of a number. -/
theorem toNat_append_eq_add {m n : Nat} (x : BitVec m) (y : BitVec n) :
    (x ++ y).toNat = x.toNat * 2 ^ n + y.toNat := by
  rw [BitVec.toNat_append, ← Nat.shiftLeft_add_eq_or_of_lt y.isLt, Nat.shiftLeft_eq]

/-- A field read out of a register, as a digit of the register's number. -/
theorem extractLsb'_eq_iff {w n lo : Nat} (x : BitVec w) (f : BitVec n) :
    x.extractLsb' lo n = f ↔ x.toNat / 2 ^ lo % 2 ^ n = f.toNat := by
  rw [← BitVec.toNat_inj, BitVec.extractLsb'_toNat, Nat.shiftRight_eq_div_pow]

/-- A bit read out of a register, as a digit of the register's number. -/
theorem getLsbD_eq_iff {w lo : Nat} (x : BitVec w) (b : Bool) :
    x.getLsbD lo = b ↔ x.toNat / 2 ^ lo % 2 = b.toNat := by
  cases b <;> simp [BitVec.getLsbD, Nat.testBit_eq_decide_div_mod_eq]

/-- R26: a read of STATUS as a number. -/
theorem readReg_status_toNat (s : State) :
    (readReg .status s).toNat = s.regime.code.toNat * 256 + s.cause.code.toNat * 16 + s.fault.toNat := by
  have hr := s.regime.code.isLt
  have hc := s.cause.code.isLt
  have hf := s.fault.toNat_lt
  simp only [readReg, statusWord, BitVec.toNat_setWidth, toNat_append_eq_add, BitVec.toNat_ofBool,
    BitVec.toNat_zero, BitVec.ofNat_eq_ofNat]
  omega

/-- R31: a read of CFG as a number. -/
theorem readReg_cfg_toNat (s : State) :
    (readReg .cfg s).toNat = 7 * 65536 + s.impl.hasMasked.toNat * 256 + s.impl.width.log2.toNat := by
  have hm := s.impl.hasMasked.toNat_lt
  have hw := s.impl.width.log2.isLt
  simp only [readReg, cfgWord, BitVec.toNat_setWidth, toNat_append_eq_add, BitVec.toNat_ofBool,
    BitVec.toNat_ofNat, BitVec.ofNat_eq_ofNat]
  omega

/-- R220: the largest cause code is 5. -/
theorem Cause.code_le (c : Cause) : c.code.toNat ≤ 5 := by cases c <;> decide

/-- R27: the largest regime code is 5. -/
theorem Regime.code_le (r : Regime) : r.code.toNat ≤ 5 := by cases r <;> decide

/-- R5, R31: W is 2 to the power of the field that CFG holds. -/
theorem Width.two_pow_log2 (w : Width) : 2 ^ w.log2.toNat = w.bytes := by cases w <;> rfl

/-- Settles O42: each field of STATUS is a digit of the number that a read of it returns. -/
theorem statusReadsItsFields : Obligations.StatusReadsItsFields := by
  unfold Obligations.StatusReadsItsFields
  refine ⟨by decide, by decide, fun s => ?_⟩
  have hn := readReg_status_toNat s
  have hr := s.regime.code_le
  have hc := s.cause.code_le
  have hf := s.fault.toNat_lt
  simp only [extractLsb'_eq_iff, getLsbD_eq_iff, hn, BitVec.ofNat_eq_ofNat, BitVec.toNat_ofNat]
  refine ⟨?_, ?_, ?_, ?_, ?_, hc, hr⟩ <;> omega

/-! ### Writes -/

/-- R61, R90: a step whose pending operation is a register write by name performs it. -/
theorem step_of_wr {s : State} {r : Reg} {v : Word64} {rest : List HostOp} (h : s.host = .wr r v :: rest) :
    step s = writeReg r v { s with host := rest } := by
  unfold step
  rw [h]
  rfl

/-- Settles O43: CFG is a view of the parameters, which no step writes. -/
theorem cfgReportsTheParameters : Obligations.CfgReportsTheParameters := by
  unfold Obligations.CfgReportsTheParameters
  refine ⟨fun s => ?_, fun s rest v h => step_of_wr h, fun s t h => ?_⟩
  · have hn := readReg_cfg_toNat s
    have hm := s.impl.hasMasked.toNat_lt
    have hw := s.impl.width.log2.isLt
    have hlog : (readReg .cfg s).extractLsb' 0 8 = s.impl.width.log2 := by
      rw [extractLsb'_eq_iff, hn]; omega
    simp only [hlog, Width.two_pow_log2, extractLsb'_eq_iff, getLsbD_eq_iff, hn, BitVec.ofNat_eq_ofNat,
      BitVec.toNat_ofNat]
    refine ⟨trivial, ?_, ?_, ?_, ?_, ?_⟩ <;> omega
  · have himpl : t.impl = s.impl := stepsKeepTheParameters s t h
    simp only [readReg, himpl]

/-- Settles O38: the write reaches STATUS as its low word, whose bit 0 is the value's. -/
theorem writingOneToStatusClearsTheFault : Obligations.WritingOneToStatusClearsTheFault := by
  unfold Obligations.WritingOneToStatusClearsTheFault
  intro s rest v h
  have hstep : step s = .next (writeStatus (v.setWidth 32) { s with host := rest }) := step_of_wr h
  have hbit : (v.setWidth 32).getLsbD 0 = v.getLsbD 0 := by simp
  rw [hstep, writeStatus, hbit]
  constructor
  · intro hv; rw [hv, if_pos rfl]
  · intro hv; rw [hv, if_neg Bool.false_ne_true]

end Sys2Proof.Machine
end

section
/-! PROOF. The canonical form of memory (R38) is one: what every address holds decides both lists. -/

namespace Sys2Proof.Machine

variable {α : Type}

/-- A list that rises lists nothing below its head. -/
theorem head_le_of_lookupAt_eq_some {lo k x : Nat} {v u : α} {t : List (Nat × α)}
    (h : risingFrom lo ((k, v) :: t) = true) (hx : lookupAt x ((k, v) :: t) = some u) : k ≤ x := by
  by_contra hlt
  have hk : risingFrom k ((k, v) :: t) = true := by simp_all [risingFrom]
  rw [lookupAt_of_risingFrom hk (by omega)] at hx
  cases hx

/-- Two rising lists that list the same at every address are equal. -/
theorem eq_of_lookupAt_eq {l l' : List (Nat × α)} {lo : Nat} (hl : risingFrom lo l = true)
    (hl' : risingFrom lo l' = true) (h : ∀ a, lookupAt a l = lookupAt a l') : l = l' := by
  induction l generalizing l' lo with
  | nil =>
    cases l' with
    | nil => rfl
    | cons c' _ => simpa [lookupAt] using h c'.1
  | cons c t ih =>
    obtain ⟨k, v⟩ := c
    have hhead : lookupAt k l' = some v := by rw [← h k]; simp [lookupAt]
    cases l' with
    | nil => cases hhead
    | cons c' t' =>
      obtain ⟨k', v'⟩ := c'
      have hhead' : lookupAt k' ((k, v) :: t) = some v' := by rw [h k']; simp [lookupAt]
      obtain rfl : k = k' :=
        le_antisymm (head_le_of_lookupAt_eq_some hl hhead') (head_le_of_lookupAt_eq_some hl' hhead)
      obtain rfl : v' = v := by simpa [lookupAt] using hhead
      simp only [risingFrom, Bool.and_eq_true] at hl hl'
      have htail : ∀ a, lookupAt a t = lookupAt a t' := by
        intro a
        by_cases ha : a = k
        · rw [lookupAt_of_risingFrom hl.2 (by omega), lookupAt_of_risingFrom hl'.2 (by omega)]
        · simpa [lookupAt, ha] using h a
      rw [ih hl.2 hl'.2 htail]

/-- The draw that memory lists where it holds this byte. -/
def MemByte.listedDraw : MemByte → Option Nat
  | .known _ => none
  | .drawn k => some k

/-- The known byte that a canonical memory lists where it holds this byte: none that an unlisted address reads as. -/
def MemByte.listedByte : MemByte → Option Byte
  | .known b => if b = Memory.unlisted then none else some b
  | .drawn _ => none

theorem Memory.lookupAt_drawn (m : Memory) (a : Nat) : lookupAt a m.drawn = (m.cell a).listedDraw := by
  unfold cell
  split
  · next k hk => exact hk
  · next hk => exact hk

theorem Memory.lookupAt_bytes {m : Memory} (h : m.wf = true) (a : Nat) :
    lookupAt a m.bytes = (m.cell a).listedByte := by
  obtain ⟨-, -, hbytes, hdrawn⟩ := (wf_iff m).mp h
  unfold cell
  split
  · next k hk => exact (hdrawn _ (mem_of_lookupAt hk)).2
  · cases hb : lookupAt a m.bytes with
    | none => simp [MemByte.listedByte]
    | some b => exact (if_neg (hbytes _ (mem_of_lookupAt hb)).2).symm

/-- Settles O53: in the canonical form both lists rise, and what they list is a function of what each address holds. -/
theorem canonicalMemoriesAreEqualData : Obligations.CanonicalMemoriesAreEqualData := by
  unfold Obligations.CanonicalMemoriesAreEqualData
  intro m m' h h' hcell
  obtain ⟨hb, hd, -, -⟩ := (Memory.wf_iff m).mp h
  obtain ⟨hb', hd', -, -⟩ := (Memory.wf_iff m').mp h'
  have hbytes : m.bytes = m'.bytes :=
    eq_of_lookupAt_eq hb hb' fun a => by rw [Memory.lookupAt_bytes h, Memory.lookupAt_bytes h', hcell]
  have hdrawn : m.drawn = m'.drawn :=
    eq_of_lookupAt_eq hd hd' fun a => by rw [Memory.lookupAt_drawn, Memory.lookupAt_drawn, hcell]
  cases m
  cases m'
  exact congrArg₂ Memory.mk hbytes hdrawn

end Sys2Proof.Machine
end

section
/-! PROOF. A legal EXPAND runs its whole effect, and what that effect does when it is run again on its own result. -/

namespace Sys2Proof.Machine

/-- R153: a legal EXPAND completes with its effect and, where ADV = 1, the write-back. -/
theorem exec_of_expandLegal {i : Instr} {s : State} (hi : isExpand i = true) (h : s.expandLegal) :
    exec i s = .next (advanceIf (advBit i) s.start s.count (expandEffect s)) := by
  have hc := (checkExpand_none_iff s).mpr h
  obtain ⟨rfl, -⟩ | ⟨-, e⟩ | ⟨ha, -⟩ := exec_cases i s
  · cases hi
  · rw [e, hc]; rfl
  · exact absurd ((eq_of_beq hi).symm.trans (eq_of_beq ha)) (by decide)

/-- R56: an EXPAND leaves every byte before the run, its sources among them. -/
theorem expandEffect_cell_of_lt_start {s : State} {x : Nat} (hx : x < s.start) :
    (expandEffect s).mem.cell x = s.mem.cell x := by
  rw [expandEffect_cell, if_neg (by omega), if_neg (by omega)]

/-- R146: the run repeats the `distance` bytes before it. -/
theorem expandEffect_cell_of_mem_run {s : State} {x : Nat} (h : s.start ≤ x ∧ x < s.start + s.count) :
    (expandEffect s).mem.cell x = s.mem.cell (s.start - s.distance + (x - s.start) % s.distance) := by
  rw [expandEffect_cell, if_pos h]

/-- R56: an EXPAND writes nothing past its write footprint. -/
theorem expandEffect_cell_of_writeSpan_le {s : State} {x : Nat} (hx : s.start + s.writeSpan ≤ x) :
    (expandEffect s).mem.cell x = s.mem.cell x := by
  have hspan := count_le_writeSpan s
  rw [expandEffect_cell, if_neg (by omega), if_neg (by omega)]

/-- R58: up to the end of the run, the effect run again leaves what it left: its sources lie before the run, so they are
as they were. -/
theorem expandEffect_expandEffect_cell {s : State} (hpos : 0 < s.distance) (hle : s.distance ≤ s.start) {x : Nat}
    (hx : x < s.start + s.count) : (expandEffect (expandEffect s)).mem.cell x = (expandEffect s).mem.cell x := by
  by_cases hrun : s.start ≤ x
  · have hmod := Nat.mod_lt (x - s.start) hpos
    have hsource : s.start - s.distance + (x - s.start) % s.distance < s.start := by omega
    calc (expandEffect (expandEffect s)).mem.cell x
      _ = (expandEffect s).mem.cell (s.start - s.distance + (x - s.start) % s.distance) :=
        expandEffect_cell_of_mem_run (s := expandEffect s) ⟨hrun, hx⟩
      _ = s.mem.cell (s.start - s.distance + (x - s.start) % s.distance) := expandEffect_cell_of_lt_start hsource
      _ = (expandEffect s).mem.cell x := (expandEffect_cell_of_mem_run ⟨hrun, hx⟩).symm
  · exact expandEffect_cell_of_lt_start (s := expandEffect s) (Nat.lt_of_not_le hrun)

/-- Settles O16: the first EXPAND keeps the operands, so the second is legal, has the same footprints, and copies the
same sources. -/
theorem repeatedExpandRewritesTheSameRun : Obligations.RepeatedExpandRewritesTheSameRun := by
  intro s t hlegal hexec
  obtain rfl : t = expandEffect s := by
    rw [exec_of_expandLegal rfl hlegal] at hexec
    exact (Host.Outcome.next.inj hexec).symm
  have hagain : (expandEffect s).expandLegal := hlegal
  obtain ⟨-, hpos, hle, -, -⟩ := hlegal
  refine ⟨expandEffect (expandEffect s), exec_of_expandLegal rfl hagain, fun x hx => ?_, fun x hx => ?_⟩
  · exact congrArg MemByte.value (expandEffect_expandEffect_cell hpos hle hx)
  · exact congrArg MemByte.value (expandEffect_cell_of_writeSpan_le (s := expandEffect s) hx)

end Sys2Proof.Machine
end

section
/-! PROOF. The decoder, said once by the fields of the word (R86, R87), and from it the seven words, the masks, and what
a write of any other word to CMD does; and INIT (R85), which only an ADLER has. -/

namespace Sys2Proof

/-! ### Fields -/

theorem CmdFields.eq_mk_iff (f : CmdFields) (op : BitVec 4) (adv init : Bool) (rsv : BitVec 26) :
    f = ⟨op, adv, init, rsv⟩ ↔ f.rsv = rsv ∧ f.op = op ∧ f.adv = adv ∧ f.init = init := by
  cases f
  rw [CmdFields.mk.injEq]
  tauto

/-- R82 to R86: the fields that spell a command, one line per operation. -/
theorem CmdFields.wellFormed_iff (f : CmdFields) :
    f.wellFormed = true ↔
      (f.rsv = 0 ∧ f.op = 0 ∧ f.adv = false ∧ f.init = false) ∨ (f.rsv = 0 ∧ f.op = 1 ∧ f.init = false) ∨
        (f.rsv = 0 ∧ f.op = 2) := by
  obtain ⟨op, adv, init, rsv⟩ := f
  by_cases h : rsv = 0
  · subst h
    revert op adv init
    decide
  · simp_all [CmdFields.wellFormed]

/-- R86: the command that well-formed fields spell has those fields. -/
theorem CmdFields.fields_selectInstr {f : CmdFields} (h : f.wellFormed = true) : (selectInstr f).fields = f := by
  obtain ⟨op, adv, init, rsv⟩ := f
  obtain ⟨rfl, rfl, rfl, rfl⟩ | ⟨rfl, rfl, rfl⟩ | ⟨rfl, rfl⟩ := (CmdFields.wellFormed_iff _).mp h
  · rfl
  · cases adv <;> rfl
  · cases adv <;> cases init <;> rfl

theorem selectInstr_fields (i : Instr) : selectInstr i.fields = i := by cases i <;> rfl

/-- R82, R86: the word of a command has the command's fields, which are well formed. -/
theorem fields_statement (i : Instr) : Laws.Fields.Statement i := by
  cases i with
  | nop => exact Laws.Fields.nop
  | expand => exact Laws.Fields.expand
  | expandAdv => exact Laws.Fields.expandAdv
  | adler => exact Laws.Fields.adler
  | adlerAdv => exact Laws.Fields.adlerAdv
  | adlerInit => exact Laws.Fields.adlerInit
  | adlerInitAdv => exact Laws.Fields.adlerInitAdv

/-- R82: two words with the same fields are the same word. -/
theorem splitWord_inj {c w : Word32} : splitWord c = splitWord w ↔ c = w := by
  constructor
  · intro h
    rw [← joinFields_splitWord c, h, joinFields_splitWord]
  · exact congrArg splitWord

/-! ### Decoding -/

/-- R87: a word decodes to a command exactly when its fields are the command's. -/
theorem decode_eq_instr_iff_fields (c : Word32) (i : Instr) : decode c = .instr i ↔ splitWord c = i.fields := by
  constructor
  · intro h
    obtain ⟨hwf, rfl⟩ := decode_eq_instr h
    exact (CmdFields.fields_selectInstr hwf).symm
  · intro h
    obtain ⟨hwf : i.fields.wellFormed = true, -⟩ := fields_statement i
    rw [decode, h, (reject_eq_none_iff _).mpr hwf, selectInstr_fields]

/-- R86: a word decodes to a command exactly when it is the command's encoding. -/
theorem decode_eq_instr_iff (c : Word32) (i : Instr) : decode c = .instr i ↔ c = encode i := by
  rw [decode_eq_instr_iff_fields, ← (fields_statement i).2, splitWord_inj]

/-- R87: ILLEGAL is decoded exactly from fields that are not well formed. -/
theorem decode_illegal_iff (c : Word32) : (∃ why, decode c = .illegal why) ↔ ¬ (splitWord c).wellFormed = true := by
  rw [← reject_eq_none_iff, decode]
  cases (splitWord c).reject <;> simp

/-- Settles O2: a word decodes to the command whose encoding it is. -/
theorem encodeThenDecodeIsIdentity : Obligations.EncodeThenDecodeIsIdentity := by
  intro i
  exact (decode_eq_instr_iff (encode i) i).mpr rfl

/-- Settles O1: each command's encoding is computed, and decodes to the command. -/
theorem sevenWordsSpellTheirCommands : Obligations.SevenWordsSpellTheirCommands := by
  have spells {c : Word32} {i : Instr} (h : encode i = c) : decode c = .instr i ∧ encode i = c :=
    ⟨(decode_eq_instr_iff c i).mpr h.symm, h⟩
  exact ⟨spells (by decide), spells (by decide), spells (by decide), spells (by decide), spells (by decide),
    spells (by decide), spells (by decide)⟩

/-- R86: the encodings are the seven words of the table. -/
theorem encode_mem_sevenWords (i : Instr) : encode i ∈
    ([0x00000000, 0x00000001, 0x00000011, 0x00000002, 0x00000012, 0x00000022, 0x00000032] : List Word32) := by
  cases i <;> decide

/-! ### Masks -/

/-- R82: a mask acts on each field by itself. -/
theorem splitWord_and (c m : Word32) :
    splitWord (c &&& m) =
      ⟨(splitWord c).op &&& (splitWord m).op, (splitWord c).adv && (splitWord m).adv,
        (splitWord c).init && (splitWord m).init, (splitWord c).rsv &&& (splitWord m).rsv⟩ := by
  simp only [splitWord, BitVec.extractLsb'_and, BitVec.getLsbD_and]

/-- R87: a mask that keeps OP and RSV, compared with a word that has OP alone, tests RSV, OP and the bits it keeps. -/
theorem and_mask_eq_iff {m w : Word32} (op : BitVec 4) (adv init : Bool) (c : Word32)
    (hm : splitWord m = ⟨BitVec.allOnes 4, adv, init, BitVec.allOnes 26⟩) (hw : splitWord w = ⟨op, false, false, 0⟩) :
    c &&& m = w ↔
      (splitWord c).rsv = 0 ∧ (splitWord c).op = op ∧ ((splitWord c).adv && adv) = false ∧
        ((splitWord c).init && init) = false := by
  rw [← splitWord_inj, splitWord_and, hm, hw, CmdFields.eq_mk_iff, BitVec.and_allOnes, BitVec.and_allOnes]

theorem and_nopMask_eq_iff (c : Word32) :
    c &&& 0xFFFFFFFF = 0x00000000 ↔
      (splitWord c).rsv = 0 ∧ (splitWord c).op = 0 ∧ (splitWord c).adv = false ∧ (splitWord c).init = false := by
  rw [and_mask_eq_iff 0 true true c (by decide) (by decide), Bool.and_true, Bool.and_true]

theorem and_expandMask_eq_iff (c : Word32) :
    c &&& 0xFFFFFFEF = 0x00000001 ↔ (splitWord c).rsv = 0 ∧ (splitWord c).op = 1 ∧ (splitWord c).init = false := by
  rw [and_mask_eq_iff 1 false true c (by decide) (by decide)]
  simp

theorem and_adlerMask_eq_iff (c : Word32) :
    c &&& 0xFFFFFFCF = 0x00000002 ↔ (splitWord c).rsv = 0 ∧ (splitWord c).op = 2 := by
  rw [and_mask_eq_iff 2 false false c (by decide) (by decide)]
  simp

/-! ### Commands by their fields -/

theorem decode_eq_nop_iff (c : Word32) :
    decode c = .instr .nop ↔
      (splitWord c).rsv = 0 ∧ (splitWord c).op = 0 ∧ (splitWord c).adv = false ∧ (splitWord c).init = false := by
  rw [decode_eq_instr_iff_fields, Instr.fields, CmdFields.eq_mk_iff]

/-- R87: EXPAND(adv), the form that bit 4 names. -/
theorem decode_eq_expand_iff (c : Word32) :
    decode c = .instr (if (splitWord c).adv then .expandAdv else .expand) ↔
      (splitWord c).rsv = 0 ∧ (splitWord c).op = 1 ∧ (splitWord c).init = false := by
  cases hadv : (splitWord c).adv <;> simp [decode_eq_instr_iff_fields, Instr.fields, CmdFields.eq_mk_iff, hadv]

/-- R87: ADLER(adv, init), the form that bits 4 and 5 name. -/
theorem decode_eq_adler_iff (c : Word32) :
    decode c = .instr (if (splitWord c).init then (if (splitWord c).adv then .adlerInitAdv else .adlerInit)
        else (if (splitWord c).adv then .adlerAdv else .adler)) ↔
      (splitWord c).rsv = 0 ∧ (splitWord c).op = 2 := by
  cases hinit : (splitWord c).init <;> cases hadv : (splitWord c).adv <;>
    simp [decode_eq_instr_iff_fields, Instr.fields, CmdFields.eq_mk_iff, hinit, hadv]

/-- Settles O4: each mask tests the fields that name its operation, and the three together are well-formedness. -/
theorem decodeFollowsFieldsAndMasks : Obligations.DecodeFollowsFieldsAndMasks := by
  intro c
  have hnop := decode_eq_nop_iff c
  have hexpand := decode_eq_expand_iff c
  have hadler := decode_eq_adler_iff c
  refine ⟨hnop, hexpand, hadler, hnop.trans (and_nopMask_eq_iff c).symm, hexpand.trans (and_expandMask_eq_iff c).symm,
    hadler.trans (and_adlerMask_eq_iff c).symm, ?_⟩
  rw [decode_illegal_iff, CmdFields.wellFormed_iff, and_nopMask_eq_iff, and_expandMask_eq_iff, and_adlerMask_eq_iff]

end Sys2Proof

namespace Sys2Proof.Machine

/-! ### Steps -/

/-- R61: a step performs the host's pending operation. -/
theorem step_of_host {s : State} {op : HostOp} {rest : List HostOp} (h : s.host = op :: rest) :
    step s = hostStep op { s with host := rest } := by
  rw [step, h]

/-- R86, R101: a CMD write of a word that is no command, with no fault pending, is the fault's record. -/
theorem issue_of_no_command {c : Word32} {s : State} (hf : s.fault = false) (h : ∀ i, decode c ≠ .instr i) :
    issue c s = .next (raiseFault .illegalCmd c s) := by
  obtain ⟨hpending, -⟩ | ⟨-, -, e⟩ | ⟨-, i, hi, -⟩ := issue_cases c s
  · rw [hf] at hpending; cases hpending
  · exact e
  · exact absurd hi (h i)

/-- Settles O3: the decoder is the inverse of the encoder, so a word that is no encoding is no command. -/
theorem everyOtherWordIsIllegal : Obligations.EveryOtherWordIsIllegal := by
  refine ⟨decode_eq_instr_iff, fun c => ?_, fun c s rest v hc hv hhost hf => ?_⟩
  · exact ⟨decode_eq_instr_iff c .nop, decode_eq_instr_iff c .expand, decode_eq_instr_iff c .expandAdv,
      decode_eq_instr_iff c .adler, decode_eq_instr_iff c .adlerAdv, decode_eq_instr_iff c .adlerInit,
      decode_eq_instr_iff c .adlerInitAdv⟩
  · have hillegal : ∀ i, decode c ≠ .instr i := fun i hi =>
      hc ((decode_eq_instr_iff c i).mp hi ▸ encode_mem_sevenWords i)
    calc step s
      _ = issue (v.setWidth 32) { s with host := rest } := step_of_wr hhost
      _ = issue c { s with host := rest } := by rw [hv]
      _ = .next (raiseFault .illegalCmd c { s with host := rest }) := issue_of_no_command hf hillegal

/-! ### INIT -/

/-- R85: only an ADLER has INIT = 1. -/
theorem decode_ne_instr_of_init {c : Word32} (hinit : (splitWord c).init = true) (hop : (splitWord c).op ≠ 2)
    (i : Instr) : decode c ≠ .instr i := by
  intro hi
  obtain ⟨-, -, -, hzero⟩ | ⟨-, -, hzero⟩ | ⟨-, htwo⟩ := (CmdFields.wellFormed_iff _).mp (decode_eq_instr hi).1
  · exact Bool.false_ne_true (hzero.symm.trans hinit)
  · exact Bool.false_ne_true (hzero.symm.trans hinit)
  · exact hop htwo

/-- R192: an ADLER whose checks pass completes with its accumulator and, where ADV = 1, the write-back. -/
theorem adlerCommand_of_legal {s : State} (h : s.start = 0 ∨ s.count = 0 ∨ s.adlerLegal) (i : Instr) (adv init : Bool) :
    adlerCommand i adv init s = .next (advanceIf adv s.start s.count { s with acc := adlerResult init s }) := by
  rw [adlerCommand, (checkAdler_none_iff s).mpr h, checked]

/-- R85: with INIT = 1 the fold starts from the identity and not from ACC. -/
theorem adlerResult_init (s : State) : adlerResult true s = adlerResult false { s with acc := accIdentity } := rfl

/-- R85: an ADLER with INIT = 1 whose checks pass is the one without it from the identity. -/
theorem adlerCommand_init {s : State} (h : s.start = 0 ∨ s.count = 0 ∨ s.adlerLegal) (i j : Instr) (adv : Bool) :
    adlerCommand i adv true s = adlerCommand j adv false { s with acc := accIdentity } := by
  have h' : State.start { s with acc := accIdentity } = 0 ∨ State.count { s with acc := accIdentity } = 0 ∨
    State.adlerLegal { s with acc := accIdentity } := h
  rw [adlerCommand_of_legal h, adlerCommand_of_legal h', adlerResult_init]
  rfl

/-- Settles O34: the fields with INIT = 1 are ADLER's or no command's, and INIT only chooses the accumulator to start
from. -/
theorem initStartsFromTheIdentity : Obligations.InitStartsFromTheIdentity := by
  refine ⟨fun c s hinit hop hf => ?_, fun s h => ?_⟩
  · exact issue_of_no_command hf (decode_ne_instr_of_init hinit hop)
  · exact ⟨adlerCommand_init h .adlerInit .adler false, adlerCommand_init h .adlerInitAdv .adlerAdv true⟩

end Sys2Proof.Machine
end

section
/-! PROOF. The register window (R80, R81) by its slots: what an access of each width does there, and how a bus access
reaches it; and the host's writes of memory (R90, R107). -/

namespace Sys2Proof.Machine

/-! ### Halves of a register -/

/-- R7: a 64-bit value is its two halves. -/
theorem high_append_low (v : Word64) : v.extractLsb' 32 32 ++ v.extractLsb' 0 32 = v := by
  rw [BitVec.extractLsb'_append_extractLsb'_eq_extractLsb' (by rfl), BitVec.extractLsb'_eq_self]

theorem low_append (x y : Word32) : (x ++ y).extractLsb' 0 32 = y := by
  rw [extractLsb'_eq_iff, toNat_append_eq_add]
  omega

theorem low_setWidth (x : Word32) : (x.setWidth 64).extractLsb' 0 32 = x := by
  rw [extractLsb'_eq_iff, BitVec.toNat_setWidth]
  omega

/-! ### The widths -/

theorem supportedAccess_iff (n o : Nat) :
    supportedAccess n o = true ↔ (n = 4 ∧ o % 4 = 0) ∨ (n = 8 ∧ o % 8 = 0) := by
  simp [supportedAccess]

theorem readWindow_four {o : Nat} (h : o % 4 = 0) (s : State) :
    readWindow o 4 s = (readSlot (slotAt o) s).setWidth 64 := by
  rw [readWindow, if_pos ((supportedAccess_iff 4 o).mpr (.inl ⟨rfl, h⟩)), if_pos rfl]

theorem writeWindow_four {o : Nat} (h : o % 4 = 0) (v : Word64) (s : State) :
    writeWindow o 4 v s = writeSlot (slotAt o) (v.extractLsb' 0 32) s := by
  rw [writeWindow, if_pos ((supportedAccess_iff 4 o).mpr (.inl ⟨rfl, h⟩)), if_pos rfl]

theorem readWindow_eight {o : Nat} (h : o % 8 = 0) (s : State) :
    readWindow o 8 s = readSlot (slotAt (o + 4)) s ++ readSlot (slotAt o) s := by
  rw [readWindow, if_pos ((supportedAccess_iff 8 o).mpr (.inr ⟨rfl, h⟩)), if_neg (by decide)]

theorem writeWindow_eight {o : Nat} (h : o % 8 = 0) (v : Word64) (s : State) :
    writeWindow o 8 v s =
      andThen (writeSlot (slotAt o) (v.extractLsb' 0 32) s)
        (writeSlot (slotAt (o + 4)) (v.extractLsb' 32 32)) := by
  rw [writeWindow, if_pos ((supportedAccess_iff 8 o).mpr (.inr ⟨rfl, h⟩)), if_neg (by decide)]

/-- R81: an access of any other width or alignment reads 0 and writes nothing. -/
theorem window_unsupported {n o : Nat} (h : ¬ supportedAccess n o = true) (v : Word64) (s : State) :
    readWindow o n s = 0 ∧ writeWindow o n v s = .next s := by
  rw [readWindow, writeWindow, if_neg h, if_neg h]
  exact ⟨rfl, rfl⟩

/-! ### The slots -/

/-- R80: the 32-bit registers of the window, each at its offset. -/
def wordSlots : List (Nat × Reg) := [(0x00, Reg.cmd), (0x04, .status), (0x20, .acc), (0x24, .fcmd), (0x28, .cfg)]

/-- R80: the 64-bit registers of the window, each at its low half's offset. -/
def wideSlots : List (Nat × Reg) := [(0x08, Reg.addr), (0x10, .dist), (0x18, .len)]

theorem slotAt_word {o : Nat} {r : Reg} (h : (o, r) ∈ wordSlots) : slotAt o = .word r ∧ o % 4 = 0 :=
  (by decide : ∀ p ∈ wordSlots, slotAt p.1 = .word p.2 ∧ p.1 % 4 = 0) _ h

/-- R80: the high half of a 64-bit register is 4 bytes on from the low one. -/
theorem slotAt_low_high {o : Nat} {r : Reg} (h : (o, r) ∈ wideSlots) :
    slotAt o = .low r ∧ slotAt (o + 4) = .high r ∧ o % 8 = 0 :=
  (by decide : ∀ p ∈ wideSlots, slotAt p.1 = .low p.2 ∧ slotAt (p.1 + 4) = .high p.2 ∧ p.1 % 8 = 0) _ h

/-- R80: nothing stands from offset 0x2C on. -/
theorem slotAt_reserved {o : Nat} (h : 0x2C ≤ o) : slotAt o = .reserved := by
  obtain ⟨k, rfl⟩ := Nat.exists_eq_add_of_le' h
  rfl

@[simp] theorem readSlot_reserved (s : State) : readSlot .reserved s = 0 := rfl

@[simp] theorem writeSlot_reserved (v : Word32) (s : State) : writeSlot .reserved v s = .next s := rfl

/-! ### The registers behind the slots -/

/-- R20, R81: a 32-bit register is its low word. -/
theorem readReg_word {o : Nat} {r : Reg} (h : (o, r) ∈ wordSlots) (s : State) :
    ((readReg r s).extractLsb' 0 32).setWidth 64 = readReg r s := by
  have hword : ∃ x : Word32, readReg r s = x.setWidth 64 := by
    cases r with
    | cmd => exact ⟨0, rfl⟩
    | status | acc | fcmd | cfg => exact ⟨_, rfl⟩
    | addr | dist | len => simp [wordSlots] at h
  obtain ⟨x, hx⟩ := hword
  rw [hx, low_setWidth]

/-- R20, R106: a 64-bit register holds what is written to it, and a second write replaces the first. -/
theorem writeReg_wide {o : Nat} {r : Reg} (h : (o, r) ∈ wideSlots) (u : Word64) (s : State) :
    ∃ t, writeReg r u s = .next t ∧ readReg r t = u ∧ ∀ v, writeReg r v t = writeReg r v s := by
  cases r with
  | addr | dist | len => exact ⟨_, rfl, rfl, fun _ => rfl⟩
  | cmd | status | acc | fcmd | cfg => simp [wideSlots] at h

/-- R81: writing the low half and then the high half of a 64-bit register writes the whole of it. -/
theorem writeSlot_low_high {o : Nat} {r : Reg} (h : (o, r) ∈ wideSlots) (v : Word64) (s : State) :
    andThen (writeSlot (.low r) (v.extractLsb' 0 32) s) (writeSlot (.high r) (v.extractLsb' 32 32)) =
      writeReg r v s := by
  obtain ⟨t, hwrite, hread, hagain⟩ :=
    writeReg_wide h ((readReg r s).extractLsb' 32 32 ++ v.extractLsb' 0 32) s
  rw [writeSlot, hwrite, andThen_next, writeSlot, hread, low_append, high_append_low, hagain]

/-- R81: an access past the last register, of either width, reads 0 and writes nothing. -/
theorem window_reserved {n o : Nat} (h : (n = 4 ∧ 0x2C ≤ o) ∨ (n = 8 ∧ 0x30 ≤ o)) (v : Word64) (s : State) :
    readWindow o n s = 0 ∧ writeWindow o n v s = .next s := by
  by_cases hs : supportedAccess n o = true
  · have hlow : slotAt o = .reserved := slotAt_reserved (by omega)
    have hhigh : slotAt (o + 4) = .reserved := slotAt_reserved (by omega)
    obtain ⟨rfl, ho⟩ | ⟨rfl, ho⟩ := (supportedAccess_iff n o).mp hs
    · simp [readWindow_four ho, writeWindow_four ho, hlow]
    · simp [readWindow_eight ho, writeWindow_eight ho, hlow, hhigh]
  · exact window_unsupported hs v s

/-- Settles O46: by the slot at the offset, where the width is supported, and by its absence elsewhere. -/
theorem windowAccessesFollowTheirWidth : Obligations.WindowAccessesFollowTheirWidth := by
  refine ⟨fun o r s v h => ?_, fun o r s v h => ?_, fun o s v h => ?_, fun o n s v _ h => ?_⟩
  · obtain ⟨hslot, ho⟩ := slotAt_word h
    rw [readWindow_four ho, writeWindow_four ho, hslot]
    exact ⟨readReg_word h s, rfl⟩
  · obtain ⟨hlow, hhigh, ho⟩ := slotAt_low_high h
    have ho4 : o % 4 = 0 := by omega
    have ho4' : (o + 4) % 4 = 0 := by omega
    rw [readWindow_eight ho, writeWindow_eight ho, readWindow_four ho4, readWindow_four ho4', writeWindow_four ho4,
      writeWindow_four ho4', hlow, hhigh]
    exact ⟨high_append_low _, writeSlot_low_high h v s, rfl, rfl, rfl, rfl⟩
  · have ho : o % 8 = 0 := (by decide : ∀ o ∈ [0x00, 0x20, 0x28], o % 8 = 0) o h
    have ho4 : o % 4 = 0 := by omega
    have ho4' : (o + 4) % 4 = 0 := by omega
    have hwrite : writeWindow (o + 4) 4 ((v.extractLsb' 32 32).setWidth 64) =
        writeSlot (slotAt (o + 4)) (v.extractLsb' 32 32) := by
      funext t
      rw [writeWindow_four ho4', low_setWidth]
    rw [readWindow_eight ho, writeWindow_eight ho, readWindow_four ho4, readWindow_four ho4', writeWindow_four ho4,
      hwrite, low_setWidth, low_setWidth]
    exact ⟨rfl, rfl⟩
  · by_cases hs : supportedAccess n o = true
    · have hs' := (supportedAccess_iff n o).mp hs
      exact window_reserved (by omega) v s
    · exact window_unsupported hs v s

/-! ### Bus accesses -/

/-- R80: REG_BASE + o, with o inside the window, is at offset o. -/
theorem windowOffset_regBase_add (p : Impl) {o : Nat} (h : o < 64) :
    windowOffset p (p.regBase + BitVec.ofNat 64 o) = some o := by
  have ho : (p.regBase + BitVec.ofNat 64 o - p.regBase).toNat = o := by
    rw [add_sub_cancel_left, BitVec.toNat_ofNat, Nat.mod_eq_of_lt (by omega)]
  rw [windowOffset, ho, if_pos h]

theorem windowOffset_outside {p : Impl} {a : Word64} (h : 64 ≤ (a - p.regBase).toNat) : windowOffset p a = none := by
  rw [windowOffset, if_neg (Nat.not_lt.mpr h)]

/-- R105: what a window read returns does not depend on the host's list. -/
theorem readWindow_setHost (o n : Nat) (rest : List HostOp) (s : State) :
    readWindow o n { s with host := rest } = readWindow o n s := rfl

/-- Settles O47: the bus address less REG_BASE is the window's offset. -/
theorem busAccessesReachTheWindow : Obligations.BusAccessesReachTheWindow := by
  refine ⟨fun s rest o n v ho h => ?_, fun s rest o n ho h => ?_, fun s rest a v n ha h => ?_⟩
  · rw [step_of_host h, hostStep, windowOffset_regBase_add s.impl ho]
  · rw [step_of_host h, hostStep, windowOffset_regBase_add s.impl ho]
    simp only [readWindow_setHost]
  · obtain h | h := h <;> rw [step_of_host h, hostStep, windowOffset_outside ha]

/-! ### Memory -/

/-- R90: each byte of memory after `mw`. -/
theorem hostWriteBytes_read (a : Nat) (bs : List Byte) (s : State) (x : Nat) :
    (hostWriteBytes a bs s).mem.read x =
      if a ≤ x ∧ x < a + bs.length then bs.getD (x - a) 0 else s.mem.read x := by
  rw [hostWriteBytes_mem, Memory.read_putRange]
  rfl

/-- Settles O48: `mw` is a write of a run of memory where the run fits in the address space, and stops elsewhere. -/
theorem hostMemoryWriteStoresItsBytes : Obligations.HostMemoryWriteStoresItsBytes := by
  intro s rest a bs h
  rw [step_of_host h, hostStep]
  refine ⟨fun hfits => ?_, fun hpast => if_neg (Nat.not_le.mpr hpast)⟩
  refine ⟨(hostWriteBytes a.toNat bs { s with host := rest }).mem, if_pos hfits, fun j hj => ?_, fun x hx => ?_⟩
  · rw [hostWriteBytes_read, if_pos (by omega), Nat.add_sub_cancel_left]
  · rw [hostWriteBytes_read, if_neg hx]

end Sys2Proof.Machine
end

section
/-! PROOF. The control of the block (40_control.md): a CMD write by either way is `issue`, which a pending fault gates
(R100, R101); every command answers a next state (R102); NOP (R103); and the host's ungated writes and reads of
registers (R105 to R107). -/

namespace Sys2Proof.Machine

/-! ### Issuing a command -/

theorem issue_of_fault {c : Word32} {s : State} (hf : s.fault = true) : issue c s = .next s := by
  rw [issue, if_pos hf]

theorem issue_of_decode {c : Word32} {i : Instr} {s : State} (hf : s.fault = false) (hd : decode c = .instr i) :
    issue c s = exec i s := by
  rw [issue, if_neg (by simp [hf]), hd]

/-- R100: a step whose pending operation writes CMD by name issues the low word. -/
theorem step_of_wr_cmd {s : State} {v : Word64} {rest : List HostOp} (h : s.host = .wr .cmd v :: rest) :
    step s = issue (v.setWidth 32) { s with host := rest } := step_of_wr h

/-- R80, R100: a step whose pending operation is a 32-bit write at the window's base issues the word. -/
theorem step_of_busWrite_cmd {s : State} {v : Word64} {rest : List HostOp}
    (h : s.host = .busWrite s.impl.regBase 4 v :: rest) :
    step s = issue (v.extractLsb' 0 32) { s with host := rest } := by
  have hbase : windowOffset s.impl s.impl.regBase = some 0 := by
    simpa using windowOffset_regBase_add s.impl (o := 0) (by decide)
  calc step s
    _ = writeWindow 0 4 v { s with host := rest } := by rw [step_of_host h, hostStep, hbase]
    _ = writeReg .cmd ((v.extractLsb' 0 32).setWidth 64) { s with host := rest } := writeWindow_four rfl v _
    _ = issue (v.extractLsb' 0 32) { s with host := rest } := by
      rw [writeReg, BitVec.setWidth_setWidth_of_le _ (by decide), BitVec.setWidth_eq]

/-- R82: a table word is read as a command exactly when the decoder reads it so. -/
theorem decodeTableWord_eq_some_iff (nbits w : Nat) (i : Instr) :
    decodeTableWord nbits w = some i ↔ decode (tableWord nbits w) = .instr i := by
  rw [decodeTableWord]
  cases decode (tableWord nbits w) <;> simp

/-- The step from `withFetchWord` issues the table word with no fault pending. -/
theorem step_withFetchWord (s : State) (nbits w : Nat) :
    step (s.withFetchWord nbits w) = issue (tableWord nbits w) { s with fault := false, cause := .none } := by
  have hstep : step (s.withFetchWord nbits w) =
      issue (((tableWord nbits w).setWidth 64).setWidth 32) { s with fault := false, cause := .none } :=
    step_of_wr_cmd rfl
  rw [hstep, BitVec.setWidth_setWidth_of_le _ (by decide), BitVec.setWidth_eq]

/-- Settles O5: each of the three steps issues its word, and with no fault pending that is the command it decodes to. -/
theorem stepRunsTheDecodedCommand : Obligations.StepRunsTheDecodedCommand := by
  refine ⟨fun s rest v i h hf hd => ?_, fun s rest v i h hf hd => ?_, fun s nbits w i hd => ?_⟩
  · exact (step_of_wr_cmd h).trans (issue_of_decode hf hd)
  · exact (step_of_busWrite_cmd h).trans (issue_of_decode hf hd)
  · have hdecode := (decodeTableWord_eq_some_iff nbits w i).mp hd
    exact (step_withFetchWord s nbits w).trans (issue_of_decode rfl hdecode)

/-! ### The fault history -/

/-- R101: a command leaves the history as it is or puts its own fault in front. -/
theorem exec_extends_faultLog {i : Instr} {s t : State} (h : exec i s = .next t) : s.faultLog <:+ t.faultLog := by
  obtain ⟨k, -, rfl⟩ | ⟨-, rfl⟩ | ⟨-, -, rfl⟩ | ⟨-, rfl⟩ := exec_next_cases h
  · exact List.suffix_cons _ s.faultLog
  · exact List.suffix_rfl
  · simp
  · simp

/-- R101: every elementary change of a step keeps the history as the older part of the new one. -/
theorem stepChanges_extend_faultLog : StepChanges (fun s t => s.faultLog <:+ t.faultLog) where
  refl _ := List.suffix_rfl
  trans _ _ _ hst htu := hst.trans htu
  command _ _ _ _ h := exec_extends_faultLog h
  illegal _ s _ := List.suffix_cons _ s.faultLog
  status v s := by rw [writeStatus_faultLog]
  addr _ _ := List.suffix_rfl
  dist _ _ := List.suffix_rfl
  len _ _ := List.suffix_rfl
  acc _ _ := List.suffix_rfl
  host _ _ := List.suffix_rfl
  readData _ _ := List.suffix_rfl
  memory _ _ _ _ := List.suffix_rfl
  reset _ := List.suffix_rfl
  abandon _ _ _ := List.suffix_rfl

/-- Settles O6: the pending fault is the gate of `issue`, the write to STATUS opens it, and the history is a suffix of
the one after every elementary change of a step. -/
theorem pendingFaultGatesCommands : Obligations.PendingFaultGatesCommands := by
  refine ⟨fun s rest v h hf => ?_, fun s rest u v i h hu hd => ?_, fun s t h => ?_⟩
  · obtain h | h := h
    · exact (step_of_wr_cmd h).trans (issue_of_fault hf)
    · exact (step_of_busWrite_cmd h).trans (issue_of_fault hf)
  · have hclear := (writingOneToStatusClearsTheFault s _ u h).1 hu
    exact ⟨_, hclear, (step_of_wr_cmd rfl).trans (issue_of_decode rfl hd)⟩
  · obtain ⟨taken, htaken⟩ := stepChanges_extend_faultLog.step h
    exact ⟨taken, htaken.symm⟩

/-! ### Commands -/

/-- Settles O8: NOP answers the state itself, and a checked command its effect or the fault's record. -/
theorem everyCommandAnswersANextState : Obligations.EveryCommandAnswersANextState := by
  intro i s
  obtain ⟨-, e⟩ | ⟨-, e⟩ | ⟨-, e⟩ := exec_cases i s
  · exact ⟨s, e⟩
  · rw [e]
    exact (checked_eq i (checkExpand s) _ s).imp fun t ht => ht.1
  · rw [e]
    exact (checked_eq i (checkAdler s) _ s).imp fun t ht => ht.1

/-- R103: a CMD write of NOP changes nothing, whether or not a fault is pending. -/
theorem issue_encode_nop (s : State) : issue (encode .nop) s = .next s := by
  cases hf : s.fault with
  | true => exact issue_of_fault hf
  | false => exact issue_of_decode hf ((decode_eq_instr_iff _ .nop).mpr rfl)

/-- R86, R103: no word but 0 with OP = 0 spells a command. -/
theorem decode_illegal_of_op_zero {c : Word32} (hop : c.extractLsb' 0 4 = 0) (hc : c ≠ 0) :
    ∃ why, decode c = .illegal why := by
  cases hd : decode c with
  | illegal why => exact ⟨why, rfl⟩
  | instr i =>
    have hfields : (splitWord c).op = i.fields.op := by rw [(decode_eq_instr_iff_fields c i).mp hd]
    have hnop : i.fields.op = 0 → i = .nop := by cases i <;> decide
    obtain rfl := hnop (hfields.symm.trans hop)
    exact absurd ((decode_eq_instr_iff c .nop).mp hd) hc

/-- Settles O9: NOP answers the state it starts from, and is the only command with OP = 0. -/
theorem nopChangesNothing : Obligations.NopChangesNothing := by
  refine ⟨by decide, fun s => rfl, fun s rest v h hv => ?_, fun c hop hc => decode_illegal_of_op_zero hop hc⟩
  rw [step_of_wr_cmd h, hv, issue_encode_nop]

/-! ### Registers -/

/-- Settles O44: the step is the register's write, which has no gate but at CMD. -/
theorem registerWritesAreNotGated : Obligations.RegisterWritesAreNotGated := by
  intro s rest v
  exact ⟨step_of_wr, step_of_wr, step_of_wr, step_of_wr, step_of_wr, step_of_wr⟩

/-- R80, R105: a bus read that is answered changes only the value returned. -/
theorem hostStep_busRead_next {a : Word64} {n : Nat} {s t : State} (h : hostStep (.busRead a n) s = .next t) :
    t = { s with readData := t.readData } := by
  rw [hostStep] at h
  cases hoff : windowOffset s.impl a with
  | none => rw [hoff] at h; cases h
  | some off => rw [hoff] at h; cases h; rfl

/-- Settles O45: each read is one write of the model's own field for the value returned. -/
theorem readsHaveNoSideEffect : Obligations.ReadsHaveNoSideEffect := by
  refine ⟨fun s rest r h => ?_, fun s => ⟨rfl, rfl, rfl, rfl, rfl, rfl⟩, fun s t rest a n h hs => ?_,
    fun s rest a h => ?_⟩
  · have hread : readReg r { s with host := rest } = readReg r s := by cases r <;> rfl
    rw [step_of_host h, hostStep, hread]
  · rw [step_of_host h] at hs
    exact hostStep_busRead_next hs
  · rw [step_of_host h, hostStep]

end Sys2Proof.Machine
end

section
/-! PROOF. The chunk primitives (41_chunk.md): what a half-chunk operation shares with the full-width one (R125), which
bytes a masked access touches (R121, R123), and the scalar fallback at W = 1 (R129). -/

namespace Sys2Proof.Machine

/-! ### Chunks by their lanes -/

theorem Chunk.eq_of_lane_eq {c c' : Chunk} (hlen : c.length = c'.length)
    (hlane : ∀ j < c.length, c.lane j = c'.lane j) : c = c' := by
  refine List.ext_getElem hlen fun j hj hj' => ?_
  simpa [Chunk.lane, hj, hj'] using hlane j hj

theorem Chunk.lane_take {h j : Nat} (c : Chunk) (hj : j < h) : Chunk.lane (c.take h) j = c.lane j := by
  simp [Chunk.lane, hj]

/-! ### Loads -/

/-- R120: a load depends on the bytes it reads. -/
theorem load_congr {w p : Nat} {m m' : Memory} (h : ∀ j < w, m.cell (p + j) = m'.cell (p + j)) :
    load w p m = load w p m' :=
  List.map_congr_left fun j hj => h j (List.mem_range.mp hj)

/-- R121, R128, R129: a masked load depends on the bytes it reads and on the draw counter. -/
theorem maskedLoad_congr {masked : Bool} {w p n k : Nat} {m m' : Memory}
    (h : ∀ j < w, j < n ∨ (masked = false ∧ n ≠ 0) → m.cell (p + j) = m'.cell (p + j)) :
    (maskedLoad masked w p n ⟨m, k⟩).1 = (maskedLoad masked w p n ⟨m', k⟩).1 := by
  refine Chunk.eq_of_lane_eq (by simp) fun j hj => ?_
  rw [length_maskedLoad] at hj
  rw [lane_maskedLoad _ _ _ _ hj, lane_maskedLoad _ _ _ _ hj]
  split_ifs with hread
  · exact h j hj hread
  · rfl

/-- R125: a narrower load is the first lanes of the wider one. -/
theorem load_take {w h : Nat} (hw : h ≤ w) (p : Nat) (m : Memory) : (load w p m).take h = load h p m := by
  rw [load, load, ← List.map_take, List.take_range, Nat.min_eq_left hw]

/-- R125: a narrower masked load is the first lanes of the wider one. -/
theorem maskedLoad_take {w h : Nat} (hw : h ≤ w) (masked : Bool) (p n : Nat) (st : PathState) :
    (maskedLoad masked w p n st).1.take h = (maskedLoad masked h p n st).1 := by
  refine Chunk.eq_of_lane_eq (by simp [hw]) fun j hj => ?_
  have hj : j < h := by simpa [hw] using hj
  rw [Chunk.lane_take _ hj, lane_maskedLoad _ _ _ _ (by omega), lane_maskedLoad _ _ _ _ hj]

/-! ### Stores -/

/-- R125: a store of a chunk's first `h` lanes is the whole chunk's store on the `h` bytes, and nothing elsewhere. -/
theorem cell_store_take (h p x : Nat) (c : Chunk) (m : Memory) :
    (store p (c.take h) m).cell x = if p ≤ x ∧ x < p + h then (store p c m).cell x else m.cell x := by
  rw [cell_store, cell_store, List.length_take]
  by_cases hx : p ≤ x ∧ x < p + h
  · rw [if_pos hx, Chunk.lane_take c (by omega)]
    exact if_congr (by omega) rfl rfl
  · rw [if_neg hx, if_neg (by omega)]

/-- R125: a masked store of at most `h` of a chunk's first `h` lanes, likewise. -/
theorem cell_maskedStore_take {n h : Nat} (hn : n ≤ h) (masked : Bool) (p x : Nat) (c : Chunk) (m : Memory) :
    (maskedStore masked p n (c.take h) m).cell x =
      if p ≤ x ∧ x < p + h then (maskedStore masked p n c m).cell x else m.cell x := by
  rw [cell_maskedStore, cell_maskedStore, List.length_take]
  by_cases hx : p ≤ x ∧ x < p + h
  · rw [if_pos hx, Chunk.lane_take c (by omega)]
    exact if_congr (by split <;> omega) rfl rfl
  · rw [if_neg hx, if_neg (by split <;> omega)]

/-! ### Half-chunk primitives -/

/-- R125: a pattern of indices below `h` permutes a chunk's first `h` lanes as it permutes the chunk. -/
theorem permute_take {h : Nat} {pat : List Nat} (c : Chunk) (hpat : ∀ q ∈ pat, q < h) :
    permute (c.take h) pat = permute c pat :=
  List.map_congr_left fun q hq => Chunk.lane_take c (hpat q hq)

/-- Settles O23: a primitive's lane, or byte of memory, at an index below `h` is the same at both widths. -/
theorem halfChunkOpsArePrefixes : Obligations.HalfChunkOpsArePrefixes := by
  intro masked w h p n st c pat hw hn
  have hpat : permute c (pat.take h) = (permute c pat).take h := List.map_take
  refine ⟨(load_take hw p st.mem).symm, (maskedLoad_take hw masked p n st).symm, fun m hm => ?_, fun x hlo hhi => ?_,
    fun x hx => ?_, hpat, fun hq => (permute_take c hq).trans hpat⟩
  · exact ⟨load_congr hm, maskedLoad_congr fun j hj _ => hm j hj⟩
  · exact ⟨by rw [cell_store_take, if_pos ⟨hlo, hhi⟩], by rw [cell_maskedStore_take hn, if_pos ⟨hlo, hhi⟩]⟩
  · exact ⟨by rw [cell_store_take, if_neg hx], by rw [cell_maskedStore_take hn, if_neg hx]⟩

/-! ### Masked access -/

/-- Settles O22: where access is masked or `n` is 0, the bytes a masked load reads and a masked store writes are the
first `n`. -/
theorem maskedAccessTouchesExactlyNBytes : Obligations.MaskedAccessTouchesExactlyNBytes := by
  refine ⟨fun masked w p n j st hn hj => ?_, fun masked w p n k m m' hmask hn hagree => ?_,
    fun masked p n x c m hmask hn => ?_, fun w p q x m => ?_⟩
  · rw [lane_maskedLoad masked p n st (by omega), if_pos (.inl hj)]
    exact ⟨rfl, maskedLoad_mem masked w p n st⟩
  · refine ⟨maskedLoad_congr fun j _ hread => hagree j ?_, length_maskedLoad ..⟩
    obtain hj | ⟨rfl, hn0⟩ := hread
    · exact hj
    · exact absurd hmask (by simp [hn0])
  · rw [cell_maskedStore]
    obtain rfl | rfl := hmask
    · exact if_congr (by rw [if_pos rfl]; omega) rfl rfl
    · rw [if_neg (by omega), if_neg (by omega)]
  · rw [cell_store, length_load]
    by_cases hx : q ≤ x ∧ x < q + w
    · rw [if_pos hx, if_pos hx, lane_load p m (by omega)]
    · rw [if_neg hx, if_neg hx]

/-! ### The scalar width -/

theorem load_one (p : Nat) (m : Memory) : load 1 p m = [m.cell p] := rfl

theorem store_one (p : Nat) (b : MemByte) (m : Memory) : store p [b] m = m.put p b := rfl

/-- R129: a masked load of one byte at W = 1 is the load. -/
theorem maskedLoad_one (masked : Bool) (p : Nat) (st : PathState) :
    (maskedLoad masked 1 p 1 st).1 = load 1 p st.mem := by cases masked <;> rfl

/-- R129: a masked store of a one-byte chunk's byte is the store. -/
theorem maskedStore_one (masked : Bool) (p : Nat) (b : MemByte) (m : Memory) :
    maskedStore masked p 1 [b] m = store p [b] m := by cases masked <;> rfl

/-- Where each step of one loop is, seen through `π`, the step of another, so are the loops. -/
theorem repeatSteps_commutes {σ τ : Type} (π : σ → τ) {f : Nat → σ → σ} {g : Nat → τ → τ} {n : Nat}
    (h : ∀ k < n, ∀ x, π (f k x) = g k (π x)) (x : σ) : π (repeatSteps f n x) = repeatSteps g n (π x) := by
  induction n with
  | zero => rfl
  | succ n ih => rw [repeatSteps, repeatSteps, h n (Nat.lt_succ_self n), ih fun k hk => h k (by omega)]

/-- R129, R145: the WIDE datapath at W = 1 is the byte-by-byte copy; each of its `n` chunks is one byte. -/
theorem widePath_one_mem {d out : Nat} (hd : d ≤ out) (masked : Bool) (n : Nat) (st : PathState) :
    (widePath masked 1 out d n st).mem = sequentialCopy out d n st.mem := by
  have hchunks : ceilDiv n 1 = n := by simp [ceilDiv]
  rw [widePath, sequentialCopy, hchunks]
  refine repeatSteps_commutes PathState.mem (fun k hk st => ?_) st
  have hone : min 1 (n - k) = 1 := by omega
  have hsource : out - d + k = out + k - d := by omega
  simp only [Nat.mul_one, hone, hsource, maskedLoad_one, load_one, maskedLoad_mem, maskedStore_one, store_one]

/-- R144: at W = 1 every distance is WIDE. -/
theorem regimeOf_w1 (d : Nat) : regimeOf d .w1 = .wide := if_pos (.inl rfl)

/-- R129: at W = 1 EXPAND's datapath is WIDE's, one byte at a time. -/
theorem expandPath_w1 {p : Impl} (hp : p.width = .w1) (out d n : Nat) (st : PathState) :
    expandPath p out d n st = widePath p.hasMasked 1 out d n st := by
  rw [expandPath, hp, regimeOf_w1]
  rfl

/-- R129, R190: at W = 1 every byte is tail. -/
theorem adlerPath_w1 {p : Impl} (hp : p.width = .w1) (part : Partition) (a : Word32) (b : Nat → Nat) (n : Nat) :
    adlerPath p part a b n =
      packAcc (serialFold b n (accS1 a, accS2 a)).1 (serialFold b n (accS1 a, accS2 a)).2 := by
  simp [adlerPath, hp]

/-- Settles O54: at W = 1 a chunk is one byte, EXPAND's datapath has one regime, and ADLER's has no block. -/
theorem scalarWidthIsTheScalarFallback : Obligations.ScalarWidthIsTheScalarFallback := by
  refine ⟨fun masked p k m m' b => ?_, fun p hp => ⟨fun out d n st _ hd => ?_, adlerPath_w1 hp⟩⟩
  · have hempty : (maskedLoad masked 1 p 0 ⟨m, k⟩).1 = (maskedLoad masked 1 p 0 ⟨m', k⟩).1 :=
      maskedLoad_congr fun j _ hread => by omega
    exact ⟨load_one p m, store_one p b m, Prod.ext (maskedLoad_one masked p _) rfl, maskedStore_one masked p b m,
      hempty, maskedLoad_mem masked 1 p 0 _, rfl, rfl⟩
  · rw [expandPath_w1 hp, widePath_one_mem hd]

end Sys2Proof.Machine
end

section
/-! PROOF. The replication tables (R140, R141), the phase of the replicated pattern (R142), the regimes (R144), and
EXPAND's datapaths (R147 to R149): each stores, chunk by chunk, the lanes that continue the run of the closed form. -/

namespace Sys2Proof.Machine

/-! ### The tables and the phase -/

/-- R140: the entry of a distance that the table covers is that distance's descriptor. -/
theorem tableEntry_eq {cw d : Nat} (h3 : 3 ≤ d) (hd : d < cw) : tableEntry cw d = descriptor cw d := by
  have hindex : d - 3 < cw - 3 := by omega
  have hdist : d - 3 + 3 = d := by omega
  simp [tableEntry, replicationTable, hindex, hdist]

/-- R140: lane `j` of the replicated chunk is the loaded byte `j mod d`. -/
theorem lane_permute_descriptor {cw d j : Nat} (c : Chunk) (hj : j < cw) :
    (permute c (descriptor cw d).pattern).lane j = c.lane (j % d) := by
  rw [lane_permute _ (by simpa [descriptor] using hj)]
  simp [descriptor]

/-- R140, R149: the chunk that HALF and FULLREP store repeats the `d` bytes loaded. -/
theorem lane_permute_maskedLoad_tableEntry {cw d j : Nat} (h3 : 3 ≤ d) (hd : d < cw) (hj : j < cw) (masked : Bool)
    (p : Nat) (st : PathState) :
    (permute (maskedLoad masked cw p d st).1 (tableEntry cw d).pattern).lane j = st.mem.cell (p + j % d) := by
  have hmod : j % d < d := Nat.mod_lt _ (by omega)
  rw [tableEntry_eq h3 hd, lane_permute_descriptor _ hj, lane_maskedLoad _ _ _ _ (by omega), if_pos (.inl hmod)]

/-- Settles O21: the tables list the descriptors of the distances from 3 on, and a descriptor's pattern is `j mod d`. -/
theorem tableEntriesReplicateThePattern : Obligations.TableEntriesReplicateThePattern := by
  refine ⟨fun w => ⟨by simp [replicationTable], by simp [replicationTable]⟩, fun cw d h3 hd => ?_,
    fun masked cw d p j st h3 hd hj => lane_permute_maskedLoad_tableEntry h3 hd hj masked p st⟩
  rw [tableEntry_eq h3 hd]
  exact ⟨rfl, rfl, by simp [descriptor], fun j hj => by simp [descriptor, hj]⟩

/-- R142: the phase of chunk `k` in closed form. -/
theorem phase_eq (cw d k : Nat) : phase cw d k = k * cw % d := by
  induction k with
  | zero => simp [phase]
  | succ k ih => rw [phase, ih, ← Nat.add_mod, Nat.succ_mul]

theorem phase_le (cw d k : Nat) : phase cw d k ≤ k * cw := by
  rw [phase_eq]
  exact Nat.mod_le _ _

/-- R142: byte `j` of chunk `k`, taken from the phase on, is byte `k * cw + j` of the period. -/
theorem phase_add_mod (cw d k j : Nat) : (phase cw d k + j) % d = (k * cw + j) % d := by
  rw [phase_eq, Nat.mod_add_mod]

/-- Settles O20: by the phase's closed form. -/
theorem phaseIsContinuous : Obligations.PhaseIsContinuous := by
  intro cw d k j _
  exact ⟨rfl, rfl, phase_eq cw d (k + 1), phase_add_mod cw d k j⟩

/-! ### Regimes -/

/-- R144: the regimes by their bands of distances; at W = 1 every distance is at least W. -/
theorem regimeOf_cases (w : Width) {d : Nat} (hd : 1 ≤ d) :
    (regimeOf d w = .wide ∧ w.bytes ≤ d) ∨
    (w ≠ .w1 ∧ d < w.bytes ∧
      ((regimeOf d w = .bcast1 ∧ d = 1) ∨
       (regimeOf d w = .bcast2 ∧ d = 2) ∨
       (regimeOf d w = .half ∧ 3 ≤ d ∧ d < w.half) ∨
       (regimeOf d w = .fullRep ∧ 3 ≤ d ∧ w.half ≤ d))) := by
  unfold regimeOf
  by_cases hwide : w = .w1 ∨ w.bytes ≤ d
  · refine .inl ⟨if_pos hwide, ?_⟩
    obtain rfl | hle := hwide
    · exact hd
    · exact hle
  · rw [if_neg hwide]
    obtain ⟨hw, hlt⟩ := not_or.mp hwide
    refine .inr ⟨hw, Nat.lt_of_not_le hlt, ?_⟩
    split_ifs with h1 h2 hhalf
    · exact .inl ⟨rfl, h1⟩
    · exact .inr (.inl ⟨rfl, h2⟩)
    · exact .inr (.inr (.inl ⟨rfl, by omega, hhalf⟩))
    · exact .inr (.inr (.inr ⟨rfl, by omega, by omega⟩))

/-- R5: where there is a half-chunk, W is twice its width. -/
theorem Width.bytes_eq_two_mul_half {w : Width} (hw : w ≠ .w1) : w.bytes = 2 * w.half := by
  cases w with
  | w1 => contradiction
  | w16 | w32 | w64 => rfl

/-! ### Loops over chunks -/

/-- A property that every step of a loop carries on holds at its end. -/
theorem repeatSteps_invariant {σ : Type} {I : Nat → σ → Prop} {f : Nat → σ → σ} {n : Nat} {x : σ} (h0 : I 0 x)
    (hstep : ∀ k < n, ∀ y, I k y → I (k + 1) (f k y)) : I n (repeatSteps f n x) := by
  induction n with
  | zero => exact h0
  | succ n ih => exact hstep n (Nat.lt_succ_self n) _ (ih fun k hk => hstep k (by omega))

/-- R7: chunk `k` of the `ceil(n / w)` begins inside the run. -/
theorem mul_lt_of_lt_ceilDiv {n w k : Nat} (hw : 0 < w) (hk : k < ceilDiv n w) : k * w < n := by
  have hle : (k + 1) * w ≤ n + w - 1 := (Nat.le_div_iff_mul_le hw).mp hk
  rw [Nat.succ_mul] at hle
  omega

/-- R7: `roundup` in the order in which the datapaths count. -/
theorem ceilDiv_mul_eq_roundup (n w : Nat) : ceilDiv n w * w = roundup n w := Nat.mul_comm _ _

/-- R7: `roundup` is the least multiple that reaches `n`. -/
theorem roundup_le_of_dvd {n w m : Nat} (hw : 0 < w) (hm : w ∣ m) (hnm : n ≤ m) : roundup n w ≤ m := by
  obtain ⟨c, rfl⟩ := hm
  refine Nat.mul_le_mul_left w (Nat.le_of_lt_succ (Nat.div_lt_of_lt_mul ?_))
  rw [Nat.mul_succ]
  omega

/-! ### The run of the closed form -/

/-- R146: what every byte of memory holds after the run. -/
theorem writeRun_cell (out d n x : Nat) (m : Memory) :
    (writeRun out d n m).cell x =
      if out ≤ x ∧ x < out + n then m.cell (out - d + (x - out) % d) else m.cell x :=
  Memory.cell_putRange ..

theorem writeRun_cell_of_lt {out x : Nat} (d n : Nat) (m : Memory) (hx : x < out) :
    (writeRun out d n m).cell x = m.cell x := by
  rw [writeRun_cell, if_neg (by omega)]

/-- R146: byte `i` of the run. -/
theorem writeRun_cell_run {out n i : Nat} (d : Nat) (m : Memory) (hi : i < n) :
    (writeRun out d n m).cell (out + i) = m.cell (out - d + i % d) := by
  rw [writeRun_cell, if_pos (by omega), Nat.add_sub_cancel_left]

/-- R145, R146: the byte `d` before byte `i` of the run, in the sources or in the run itself, is byte `i`'s source. -/
theorem writeRun_cell_back {out d n i : Nat} (m : Memory) (hpos : 0 < d) (hd : d ≤ out) (hi : i ≤ n) :
    (writeRun out d n m).cell (out + i - d) = m.cell (out - d + i % d) := by
  by_cases hlt : i < d
  · have hsource : out + i - d = out - d + i := by omega
    rw [writeRun_cell_of_lt d n m (by omega), Nat.mod_eq_of_lt hlt, hsource]
  · obtain ⟨r, rfl⟩ := Nat.exists_eq_add_of_le (Nat.le_of_not_lt hlt)
    have hback : out + (d + r) - d = out + r := by omega
    rw [hback, writeRun_cell_run d m (by omega), Nat.add_mod_left]

/-! ### What a loop over chunks has done -/

/-- R147 to R149: memory `mem` after `k` chunks of width `w` of the run that begins at `out`, from memory `m`: the run is
as the closed form as far as the chunks reach, and nothing is written past them, nor with masked access past the run. -/
structure ChunksStored (masked : Bool) (w out d n : Nat) (m : Memory) (k : Nat) (mem : Memory) : Prop where
  run : ∀ x < out + min n (k * w), mem.cell x = (writeRun out d n m).cell x
  past : ∀ x, out + k * w ≤ x → mem.cell x = m.cell x
  pastRun : masked = true → ∀ x, out + n ≤ x → mem.cell x = m.cell x

theorem chunksStored_zero (masked : Bool) (w out d n : Nat) (m : Memory) : ChunksStored masked w out d n m 0 m where
  run x hx := (writeRun_cell_of_lt d n m (by simpa using hx)).symm
  past _ _ := rfl
  pastRun _ _ _ := rfl

/-- R123, R128: a masked store writes nothing past the chunk, nor with masked access past its `n` bytes. -/
theorem cell_maskedStore_of_le {masked : Bool} {p n x : Nat} {c : Chunk} {m : Memory} (hx : p + n ≤ x)
    (hpast : masked = true ∨ p + c.length ≤ x) : (maskedStore masked p n c m).cell x = m.cell x := by
  rw [cell_maskedStore, if_neg]
  rintro ⟨-, -, hlt⟩
  obtain rfl | hpast := hpast
  · rw [if_pos rfl] at hlt
    omega
  · split_ifs at hlt <;> omega

/-- A load changes no byte. -/
theorem ChunksStored.afterLoad {masked : Bool} {w out d n k p c : Nat} {m : Memory} {y : PathState}
    (h : ChunksStored masked w out d n m k y.mem) :
    ChunksStored masked w out d n m k (maskedLoad masked w p c y).2.mem := by rwa [maskedLoad_mem]

/-- A masked store of a chunk that continues the run carries the loop on. -/
theorem ChunksStored.store {masked : Bool} {w out d n k : Nat} {m mem : Memory} {c : Chunk}
    (h : ChunksStored masked w out d n m k mem) (hk : k * w < n) (hlen : c.length = w)
    (hlane : ∀ j < min w (n - k * w), c.lane j = m.cell (out - d + (k * w + j) % d)) :
    ChunksStored masked w out d n m (k + 1)
      (maskedStore masked (out + k * w) (min w (n - k * w)) c mem) := by
  constructor
  · intro x hx
    rw [Nat.succ_mul] at hx
    by_cases hold : x < out + k * w
    · rw [cell_maskedStore, if_neg (by omega)]
      exact h.run x (by omega)
    · obtain ⟨j, rfl⟩ := Nat.exists_eq_add_of_le (Nat.le_of_not_lt hold)
      have hj : j < min w (n - k * w) := by omega
      rw [cell_maskedStore, if_pos ⟨by omega, by omega, by split_ifs <;> omega⟩, Nat.add_sub_cancel_left,
        hlane j hj, Nat.add_assoc, writeRun_cell_run d m (by omega)]
  · intro x hx
    rw [Nat.succ_mul] at hx
    rw [cell_maskedStore_of_le (by omega) (.inr (by omega))]
    exact h.past x (by omega)
  · intro hm x hx
    rw [cell_maskedStore_of_le (by omega) (.inl hm)]
    exact h.pastRun hm x hx

/-! ### The datapaths -/

/-- R147: WIDE loads each chunk from bytes that the chunks before it have already stored. -/
theorem widePath_chunksStored (masked : Bool) {w out d n : Nat} (hw : 0 < w) (hwd : w ≤ d) (hd : d ≤ out)
    (st : PathState) :
    ChunksStored masked w out d n st.mem (ceilDiv n w) (widePath masked w out d n st).mem := by
  refine repeatSteps_invariant (I := fun k (y : PathState) => ChunksStored masked w out d n st.mem k y.mem)
    (chunksStored_zero ..) fun k hk y h => ?_
  have hkn := mul_lt_of_lt_ceilDiv hw hk
  refine h.afterLoad.store hkn (length_maskedLoad ..) fun j hj => ?_
  have hback : out - d + k * w + j = out + (k * w + j) - d := by omega
  calc (maskedLoad masked w (out - d + k * w) (min w (n - k * w)) y).1.lane j
    _ = y.mem.cell (out + (k * w + j) - d) := by
      rw [lane_maskedLoad _ _ _ _ (by omega), if_pos (.inl hj), hback]
    _ = (writeRun out d n st.mem).cell (out + (k * w + j) - d) := h.run _ (by omega)
    _ = st.mem.cell (out - d + (k * w + j) % d) := writeRun_cell_back st.mem (by omega) hd (by omega)

/-- R127: the broadcast pattern of distance 1 or 2 is `j mod d`. -/
theorem broadcastPattern_eq {w d : Nat} (hd : d = 1 ∨ d = 2) : broadcastPattern w d = (descriptor w d).pattern := by
  obtain rfl | rfl := hd <;> simp [broadcastPattern, descriptor, Nat.mod_one]

/-- R148: BCAST stores one chunk again and again, which is the run since `d` divides `W`. -/
theorem bcastPath_chunksStored (masked : Bool) {w out d n : Nat} (hd : d = 1 ∨ d = 2) (hw : d ∣ w) (hpos : 0 < w)
    (st : PathState) :
    ChunksStored masked w out d n st.mem (ceilDiv n w) (bcastPath masked w out d n st).mem := by
  refine repeatSteps_invariant (I := fun k (y : PathState) => ChunksStored masked w out d n st.mem k y.mem)
    (by simpa using chunksStored_zero ..) fun k hk y h => ?_
  have hkn := mul_lt_of_lt_ceilDiv hpos hk
  refine h.store hkn (by simp [permute, broadcastPattern]) fun j hj => ?_
  have hmod : j % d < d := Nat.mod_lt _ (by omega)
  have hdw := Nat.le_of_dvd hpos hw
  have hphase : (k * w + j) % d = j % d := by
    rw [Nat.add_mod, Nat.mod_eq_zero_of_dvd (hw.mul_left k), Nat.zero_add, Nat.mod_mod]
  rw [broadcastPattern_eq hd, lane_permute_descriptor _ (by omega), lane_maskedLoad _ _ _ _ (by omega),
    if_pos (.inl hmod), hphase]

/-- R149: HALF and FULLREP load the period at the phase of the chunk, from sources or bytes already stored. -/
theorem replicatePath_chunksStored (masked : Bool) {cw out d n : Nat} (h3 : 3 ≤ d) (hcw : d < cw) (hd : d ≤ out)
    (st : PathState) :
    ChunksStored masked cw out d n st.mem (ceilDiv n cw) (replicatePath masked cw out d n st).mem := by
  refine (repeatSteps_invariant
    (I := fun k (y : Nat × PathState) => y.1 = phase cw d k ∧ ChunksStored masked cw out d n st.mem k y.2.mem)
    ⟨rfl, chunksStored_zero ..⟩ fun k hk y h => ?_).2
  obtain ⟨q, y⟩ := y
  obtain ⟨rfl : q = phase cw d k, h⟩ := h
  have hkn := mul_lt_of_lt_ceilDiv (by omega) hk
  refine ⟨by rw [tableEntry_eq h3 hcw]; rfl, h.afterLoad.store hkn ?_ fun j hj => ?_⟩
  · rw [tableEntry_eq h3 hcw]
    simp [permute, descriptor]
  · have hmod : j % d < d := Nat.mod_lt _ (by omega)
    have hmodle : j % d ≤ j := Nat.mod_le _ _
    have hphase := phase_le cw d k
    have hback : out - d + phase cw d k + j % d = out + (phase cw d k + j % d) - d := by omega
    calc _
      _ = y.mem.cell (out + (phase cw d k + j % d) - d) := by
        rw [lane_permute_maskedLoad_tableEntry h3 hcw (by omega), hback]
      _ = (writeRun out d n st.mem).cell (out + (phase cw d k + j % d) - d) := h.run _ (by omega)
      _ = st.mem.cell (out - d + (phase cw d k + j % d) % d) := writeRun_cell_back st.mem (by omega) hd (by omega)
      _ = st.mem.cell (out - d + (k * cw + j) % d) := by rw [Nat.add_mod_mod, phase_add_mod]

/-- R144: whichever datapath the regime selects, it stores whole chunks until the run is covered, of a width that is W or
half of it. -/
theorem expandPath_chunksStored (p : Impl) {out d : Nat} (n : Nat) (hpos : 0 < d) (hd : d ≤ out) (st : PathState) :
    ∃ cw, 0 < cw ∧ cw ∣ p.width.bytes ∧
      ChunksStored p.hasMasked cw out d n st.mem (ceilDiv n cw) (expandPath p out d n st).mem := by
  have hbytes := Width.bytes_pos p.width
  unfold expandPath
  obtain ⟨e, hwide⟩ | ⟨hw, hfull, ⟨e, rfl⟩ | ⟨e, rfl⟩ | ⟨e, h3, hhalf⟩ | ⟨e, h3, -⟩⟩ := regimeOf_cases p.width hpos <;>
    rw [e]
  · exact ⟨_, hbytes, dvd_rfl, widePath_chunksStored _ hbytes hwide hd st⟩
  · exact ⟨_, hbytes, dvd_rfl, bcastPath_chunksStored _ (.inl rfl) (one_dvd _) hbytes st⟩
  · exact ⟨_, hbytes, dvd_rfl,
      bcastPath_chunksStored _ (.inr rfl) (Dvd.intro _ (Width.bytes_eq_two_mul_half hw).symm) hbytes st⟩
  · exact ⟨_, by omega, Dvd.intro_left 2 (Width.bytes_eq_two_mul_half hw).symm,
      replicatePath_chunksStored _ h3 hhalf hd st⟩
  · exact ⟨_, hbytes, dvd_rfl, replicatePath_chunksStored _ h3 hfull hd st⟩

/-- Settles O19: the chunks that the datapath stores cover the run, and end where the write footprint ends or before. -/
theorem expandDatapathReachesTheClosedForm : Obligations.ExpandDatapathReachesTheClosedForm := by
  intro p m k out d n _ hpos hd
  obtain ⟨cw, hcw, hdvd, h⟩ := expandPath_chunksStored p n hpos hd ⟨m, k⟩
  have hcover : n ≤ ceilDiv n cw * cw := ceilDiv_mul_eq_roundup n cw ▸ le_roundup n hcw
  have hspan : ceilDiv n cw * cw ≤ roundup n p.width.bytes :=
    ceilDiv_mul_eq_roundup n cw ▸ roundup_le_of_dvd hcw (hdvd.mul_right _) (le_roundup n (Width.bytes_pos _))
  exact ⟨fun x hx => h.run x (by omega), fun x hx => h.past x (by omega), h.pastRun⟩

end Sys2Proof.Machine
end

section
/-! PROOF. EXPAND as a command (R153): its run, which is the sequential copy's (R145), its margin (R150), its frame
(R152, R224), its regime (R144), and what it does not depend on: W and HAS_MASKED (R154), and ACC (R155). -/

namespace Sys2Proof.Machine

/-! ### What an EXPAND answers -/

/-- R153: both EXPANDs are one command, with ADV as a parameter. -/
theorem exec_of_isExpand {i : Instr} (hi : isExpand i = true) (s : State) :
    exec i s = expandCommand i (advBit i) s := by
  cases i with
  | nop | adler | adlerAdv | adlerInit | adlerInitAdv => cases hi
  | expand | expandAdv => rfl

/-- R153, R224: a legal EXPAND has had its whole effect, and any other has recorded its fault. -/
theorem exec_expand_cases {i : Instr} {s t : State} (hi : isExpand i = true) (h : exec i s = .next t) :
    (s.expandLegal ∧ t = advanceIf (advBit i) s.start s.count (expandEffect s)) ∨
    (¬ s.expandLegal ∧ ∃ k, t = raiseFault k (encode i) s) := by
  rw [exec_of_isExpand hi] at h
  rw [← checkExpand_none_iff]
  obtain ⟨hc, ht⟩ | ⟨k, hk, ht⟩ := checked_next_cases h
  · exact .inl ⟨hc, ht⟩
  · exact .inr ⟨by simp [hk], k, ht⟩

/-- R153: the next state of a legal EXPAND. -/
theorem eq_of_exec_expand {i : Instr} {s t : State} (hi : isExpand i = true) (hlegal : s.expandLegal)
    (h : exec i s = .next t) : t = advanceIf (advBit i) s.start s.count (expandEffect s) := by
  obtain ⟨-, ht⟩ | ⟨hnot, -⟩ := exec_expand_cases hi h
  · exact ht
  · exact absurd hlegal hnot

/-- A byte of memory after the command is the effect's: the write-back writes no memory. -/
theorem advanceIf_expandEffect_read {adv : Bool} {a n : Nat} {s : State} {x : Nat} {b : MemByte}
    (h : (expandEffect s).mem.cell x = b) : (advanceIf adv a n (expandEffect s)).mem.read x = b.value := by
  rw [advanceIf_mem, Memory.read, h]

/-- R152: an EXPAND writes nothing outside its write footprint. -/
theorem advanceIf_expandEffect_read_outside (adv : Bool) (a n : Nat) {s : State} {x : Nat}
    (hx : ¬ (s.start ≤ x ∧ x < s.start + s.writeSpan)) :
    (advanceIf adv a n (expandEffect s)).mem.read x = s.mem.read x := by
  by_cases hlt : x < s.start
  · exact advanceIf_expandEffect_read (expandEffect_cell_of_lt_start hlt)
  · exact advanceIf_expandEffect_read (expandEffect_cell_of_writeSpan_le (by omega))

/-- Settles O10: the effect's bytes, its footprint and its registers, and the write-back of ADDR after it. -/
theorem expandWritesThePeriodicRun : Obligations.ExpandWritesThePeriodicRun := by
  intro i s hi hlegal
  have hspan := writeSpan_lt s
  refine ⟨_, exec_of_expandLegal hi hlegal, fun k hk => ?_, fun x hx => ?_, fun x _ hx => ?_, Nat.mul_comm .., by omega,
    by simp, fun hadv => by simp [hadv], fun hadv hlt => ?_, by simp⟩
  · rw [advanceIf_expandEffect_read (expandEffect_cell_of_mem_run (by omega)), Nat.add_sub_cancel_left]
    rfl
  · exact advanceIf_expandEffect_read_outside _ _ _ hx
  · exact advanceIf_expandEffect_read_outside _ _ _ (by omega)
  · rw [advanceIf_addr, if_pos hadv, if_pos (show s.start + s.count < addressSpace from hlt), BitVec.toNat_ofNat,
      Nat.mod_eq_of_lt hlt]

/-- Settles O12: the effect and the write-back write none of these fields, and a fault's record only its own. -/
theorem expandFrame : Obligations.ExpandFrame := by
  intro i s t hi h
  obtain ⟨hlegal, rfl⟩ | ⟨hnot, k, rfl⟩ := exec_expand_cases hi h
  · exact ⟨by simp, by simp, by simp, by simp, by simp, by simp, fun hadv => by simp [hadv], fun _ => by simp,
      fun _ x hx => advanceIf_expandEffect_read_outside _ _ _ hx, fun hnot => absurd hlegal hnot⟩
  · simp [hnot]

/-! ### The sequential copy -/

/-- R145, R146: the sequential copy leaves the run of the closed form: each byte read lies `d` before the one written,
in the sources or in the part of the run that is already there. -/
theorem sequentialCopy_cell {out d : Nat} (n x : Nat) (m : Memory) (hpos : 0 < d) (hd : d ≤ out) :
    (sequentialCopy out d n m).cell x = (writeRun out d n m).cell x := by
  induction n generalizing x with
  | zero => rfl
  | succ n ih =>
    calc (sequentialCopy out d (n + 1) m).cell x
      _ = if x = out + n then (sequentialCopy out d n m).cell (out + n - d) else (sequentialCopy out d n m).cell x :=
        Memory.cell_put ..
      _ = if x = out + n then m.cell (out - d + n % d) else (writeRun out d n m).cell x := by
        rw [ih, ih, writeRun_cell_back m hpos hd le_rfl]
      _ = (writeRun out d (n + 1) m).cell x := (Memory.cell_put ..).symm

/-- R146, R150: outside the margin, an EXPAND leaves memory as the run alone does, which W has no part in. -/
theorem expandEffect_cell_of_not_margin {s : State} {x : Nat}
    (hx : x < s.start + s.count ∨ s.start + s.writeSpan ≤ x) :
    (expandEffect s).mem.cell x = (writeRun s.start s.distance s.count s.mem).cell x := by
  have hspan := count_le_writeSpan s
  rw [expandEffect_mem, Memory.cell_putRange, if_neg (by omega)]

/-- Settles O11: both leave the run of the closed form. -/
theorem expandEqualsSequentialCopy : Obligations.ExpandEqualsSequentialCopy := by
  intro i s t hi hlegal h x hx
  obtain rfl := eq_of_exec_expand hi hlegal h
  obtain ⟨-, hpos, hd, -, -⟩ := hlegal
  rw [advanceIf_expandEffect_read (expandEffect_cell_of_not_margin (.inl hx)),
    ← sequentialCopy_cell s.count x s.mem hpos hd]
  rfl

/-! ### The margin -/

/-- R150: byte `j` of the margin is a draw of its own. -/
theorem expandEffect_cell_margin {s : State} {j : Nat} (hj : s.count + j < s.writeSpan) :
    (expandEffect s).mem.cell (s.start + s.count + j) = .drawn (s.draws + j) := by
  rw [expandEffect_cell, if_neg (by omega), if_pos (by omega), Nat.add_sub_cancel_left]

/-- R150: where W divides L there is no margin. -/
theorem writeSpan_eq_count_of_dvd {s : State} (h : s.w ∣ s.count) : s.writeSpan = s.count :=
  le_antisymm (roundup_le_of_dvd (Width.bytes_pos _) h le_rfl) (count_le_writeSpan s)

/-- Settles O13: the margin takes the draws from the counter on, and the counter then goes past them. -/
theorem marginBytesAreFreshDraws : Obligations.MarginBytesAreFreshDraws := by
  intro i s t hi hlegal h
  obtain rfl := eq_of_exec_expand hi hlegal h
  refine ⟨fun j hj => advanceIf_expandEffect_read (expandEffect_cell_margin hj), ?_, writeSpan_eq_count_of_dvd⟩
  rw [advanceIf_draws, expandEffect_draws]
  split_ifs <;> omega

/-! ### The regime -/

theorem regimeOf_eq_half_iff (w : Width) {d : Nat} (hd : 1 ≤ d) : regimeOf d w = .half ↔ 3 ≤ d ∧ d < w.half := by
  have hle : w.half ≤ w.bytes := Nat.div_le_self _ _
  obtain ⟨e, h⟩ | ⟨-, -, ⟨e, h⟩ | ⟨e, h⟩ | ⟨e, h⟩ | ⟨e, h⟩⟩ := regimeOf_cases w hd
  all_goals
    simp only [e, reduceCtorEq, false_iff, true_iff]
    omega

theorem regimeOf_eq_fullRep_iff (w : Width) {d : Nat} (hd : 1 ≤ d) :
    regimeOf d w = .fullRep ↔ 3 ≤ d ∧ w.half ≤ d ∧ d < w.bytes := by
  obtain ⟨e, h⟩ | ⟨-, hlt, ⟨e, h⟩ | ⟨e, h⟩ | ⟨e, h⟩ | ⟨e, h⟩⟩ := regimeOf_cases w hd
  all_goals
    simp only [e, reduceCtorEq, false_iff, true_iff]
    omega

/-- R27, R144: the code of every regime, by the rule's cases in their order. -/
theorem code_regimeOf (w : Width) {d : Nat} (hd : 1 ≤ d) :
    (regimeOf d w).code =
      if w.bytes = 1 ∨ w.bytes ≤ d then 5
      else if d = 1 then 1
      else if d = 2 then 2
      else if 2 * d < w.bytes then 3
      else 4 := by
  obtain ⟨e, h⟩ | ⟨hw, hlt, h⟩ := regimeOf_cases w hd
  · rw [e, if_pos (.inr h)]; rfl
  · have htwo := Width.bytes_eq_two_mul_half hw
    rw [if_neg (by omega)]
    obtain ⟨e, h⟩ | ⟨e, h⟩ | ⟨e, h⟩ | ⟨e, h⟩ := h <;> rw [e]
    · rw [if_pos h]; rfl
    · rw [if_neg (by omega), if_pos h]; rfl
    · rw [if_neg (by omega), if_neg (by omega), if_pos (by omega)]; rfl
    · rw [if_neg (by omega), if_neg (by omega), if_neg (by omega)]; rfl

/-- Settles O14: by the bands of the regimes; the effect leaves the regime, which STATUS reads. -/
theorem regimeFollowsDistanceAndWidth : Obligations.RegimeFollowsDistanceAndWidth := by
  refine ⟨fun w d hd => code_regimeOf w hd, fun d hd => ?_, fun i s t hi hlegal h => ?_⟩
  · simp only [regimeOf_eq_half_iff _ hd, regimeOf_eq_fullRep_iff _ hd, Width.half, Width.bytes]
    omega
  · obtain rfl := eq_of_exec_expand hi hlegal h
    obtain ⟨-, -, hfields⟩ := statusReadsItsFields
    obtain ⟨-, -, -, hregime, -⟩ := hfields (advanceIf (advBit i) s.start s.count (expandEffect s))
    rw [hregime, advanceIf_regime, expandEffect_regime]

/-! ### What an EXPAND does not depend on -/

/-- R104: ADDR after a legal EXPAND; where the sum is 2^64 there is no margin, so the free value (log 6) is that of the
counter before the command. -/
theorem advanceIf_expandEffect_addr {s : State} (hlegal : s.expandLegal) (adv : Bool) :
    (advanceIf adv s.start s.count (expandEffect s)).addr =
      if adv then
        if s.start + s.count < addressSpace then BitVec.ofNat 64 (s.start + s.count) else Config.freeAddr s.draws
      else s.addr := by
  obtain ⟨-, -, -, hspace, -⟩ := hlegal
  have hspan := count_le_writeSpan s
  rw [advanceIf_addr, expandEffect_addr, expandEffect_draws]
  split_ifs with hadv hlt
  · rfl
  · have hmargin : s.writeSpan - s.count = 0 := by omega
    rw [hmargin, Nat.add_zero]
  · rfl

/-- R5: the same state on an implementation with another chunk width and masked capability. -/
def State.withChunks (s : State) (w : Width) (masked : Bool) : State :=
  { s with impl := { s.impl with width := w, hasMasked := masked } }

/-- Settles O15: outside both margins memory is as after the run, whose operands and sources the two states share, and
the write-back adds the same sum. -/
theorem expandIsChunkWidthIndependent : Obligations.ExpandIsChunkWidthIndependent := by
  intro i s t t' w masked hi hlegal hlegal' h h'
  obtain rfl := eq_of_exec_expand hi hlegal h
  obtain rfl := eq_of_exec_expand hi hlegal' h'
  have hread : ∀ x, (x < s.start + s.count ∨ s.start + max (roundup s.count s.w) (roundup s.count w.bytes) ≤ x) →
      (advanceIf (advBit i) s.start s.count (expandEffect s)).mem.read x =
        (advanceIf (advBit i) s.start s.count (expandEffect (s.withChunks w masked))).mem.read x := by
    intro x hx
    have hcell := expandEffect_cell_of_not_margin (s := s) (x := x)
      (hx.imp_right (Nat.add_le_add_left (le_max_left _ _) _).trans)
    have hcell' := expandEffect_cell_of_not_margin (s := s.withChunks w masked) (x := x)
      (hx.imp_right (Nat.add_le_add_left (le_max_right _ _) _).trans)
    exact (advanceIf_expandEffect_read hcell).trans (advanceIf_expandEffect_read hcell').symm
  refine ⟨fun x _ hx => hread x (.inl hx), fun x hx => hread x (by omega), ?_, by simp⟩
  rw [advanceIf_expandEffect_addr hlegal, advanceIf_expandEffect_addr hlegal']
  rfl

/-- A checked command whose check does not read what an update of the state writes, and whose effect and fault's record
the update leaves alone, carries the update through. -/
theorem checked_update {i : Instr} {c : Option Cause} {f u : State → State} {s t : State}
    (hf : f (u s) = u (f s)) (hu : ∀ k, raiseFault k (encode i) (u s) = u (raiseFault k (encode i) s))
    (h : checked i c f s = .next t) : checked i c f (u s) = .next (u t) := by
  obtain ⟨rfl, rfl⟩ | ⟨k, rfl, rfl⟩ := checked_next_cases h
  · exact congrArg Host.Outcome.next hf
  · exact congrArg Host.Outcome.next (hu k)

theorem advanceIf_setAcc (adv : Bool) (a n : Nat) (v : Word32) (s : State) :
    advanceIf adv a n { s with acc := v } = { advanceIf adv a n s with acc := v } := by
  unfold advanceIf advance
  split_ifs <;> rfl

/-- Settles O18: the checks, the effect and the write-back neither read nor write ACC. -/
theorem expandIgnoresTheAccumulator : Obligations.ExpandIgnoresTheAccumulator := by
  intro i s t a hi h
  obtain ⟨-, -, hacc, -⟩ := expandFrame i s t hi h
  refine ⟨hacc, ?_⟩
  rw [exec_of_isExpand hi] at h ⊢
  exact checked_update (u := fun s => { s with acc := a }) (advanceIf_setAcc _ _ _ a (expandEffect s)) (fun _ => rfl) h

end Sys2Proof.Machine
end

section
/-! PROOF. The arithmetic of ADLER (R180 to R184): the integers behind the closed form, which the serial recurrence
(R181) and a split run (R193) reach too, and the bound on them (R183). -/

namespace Sys2Proof.Machine

/-! ### Fields -/

/-- R180: both fields reduced modulo BASE. -/
def reduceFields (s : Nat × Nat) : Nat × Nat := (s.1 % adlerBase, s.2 % adlerBase)

/-- R25: the two fields of an accumulator. -/
def accFields (a : Word32) : Nat × Nat := (accS1 a, accS2 a)

/-- R184: the closed form's integers before any reduction, from fields `s`. -/
def unreducedFold (b : Nat → Nat) (n : Nat) (s : Nat × Nat) : Nat × Nat :=
  (s.1 + sumTo b n, s.2 + n * s.1 + sumTo (fun i => (n - i) * b i) n)

theorem reduceFields_lt (s : Nat × Nat) : (reduceFields s).1 < 65521 ∧ (reduceFields s).2 < 65521 :=
  ⟨Nat.mod_lt _ (by decide), Nat.mod_lt _ (by decide)⟩

@[simp] theorem reduceFields_reduceFields (s : Nat × Nat) : reduceFields (reduceFields s) = reduceFields s := by
  simp [reduceFields]

/-- R182: reduced fields fit in 16 bits, so packing keeps them. -/
theorem accFields_packAcc_reduceFields (s : Nat × Nat) :
    accFields (packAcc (reduceFields s).1 (reduceFields s).2) = reduceFields s := by
  obtain ⟨h1, h2⟩ := reduceFields_lt s
  rw [accFields, accS1_packAcc, accS2_packAcc, Nat.mod_eq_of_lt (by omega), Nat.mod_eq_of_lt (by omega)]

/-- R184: the closed form's accumulator holds the reduced integers. -/
theorem adlerFold_eq (a : Word32) (b : Nat → Nat) (n : Nat) :
    adlerFold a b n = packAcc (reduceFields (unreducedFold b n (accFields a))).1
      (reduceFields (unreducedFold b n (accFields a))).2 := rfl

theorem accFields_adlerFold (a : Word32) (b : Nat → Nat) (n : Nat) :
    accFields (adlerFold a b n) = reduceFields (unreducedFold b n (accFields a)) := by
  rw [adlerFold_eq, accFields_packAcc_reduceFields]

/-! ### The integers of the closed form, byte by byte -/

@[simp] theorem unreducedFold_zero (b : Nat → Nat) (s : Nat × Nat) : unreducedFold b 0 s = s := by
  simp [unreducedFold, sumTo]

/-- One more byte raises the weight of every byte before it by one. -/
theorem sumTo_weighted_succ (b : Nat → Nat) (n : Nat) :
    sumTo (fun i => (n + 1 - i) * b i) (n + 1) = sumTo (fun i => (n - i) * b i) n + sumTo b n + b n := by
  have hweight : ∀ i < n, (n + 1 - i) * b i = (n - i) * b i + b i := fun i hi => by
    rw [Nat.succ_sub hi.le, Nat.succ_mul]
  rw [sumTo, sumTo_congr hweight, sumTo_add, Nat.add_sub_cancel_left, Nat.one_mul]

/-- R181: the closed form's integers take a byte as the recurrence does, without its reductions. -/
theorem unreducedFold_succ (b : Nat → Nat) (n : Nat) (s : Nat × Nat) :
    unreducedFold b (n + 1) s =
      ((unreducedFold b n s).1 + b n, (unreducedFold b n s).2 + ((unreducedFold b n s).1 + b n)) := by
  simp only [unreducedFold, sumTo_weighted_succ, Prod.mk.injEq]
  exact ⟨by rw [sumTo, Nat.add_assoc], by ring⟩

/-- R193: folding a run is folding its first part and then the rest. -/
theorem unreducedFold_add (b : Nat → Nat) (m n : Nat) (s : Nat × Nat) :
    unreducedFold b (m + n) s = unreducedFold (fun i => b (m + i)) n (unreducedFold b m s) := by
  induction n with
  | zero => simp
  | succ n ih => rw [← Nat.add_assoc, unreducedFold_succ, ih, unreducedFold_succ]

/-- R193: the reduced fold is a function of the residues of the starting fields. -/
theorem reduceFields_unreducedFold (b : Nat → Nat) (n : Nat) (s : Nat × Nat) :
    reduceFields (unreducedFold b n (reduceFields s)) = reduceFields (unreducedFold b n s) := by
  have h1 : s.1 % adlerBase ≡ s.1 [MOD adlerBase] := Nat.mod_modEq _ _
  have h2 : s.2 % adlerBase ≡ s.2 [MOD adlerBase] := Nat.mod_modEq _ _
  exact Prod.ext (h1.add_right _) ((h2.add (h1.mul_left n)).add_right _)

/-- R193: two folds, one after the other, are the fold over both runs. -/
theorem adlerFold_adlerFold (a : Word32) (b : Nat → Nat) (m n : Nat) :
    adlerFold (adlerFold a b m) (fun i => b (m + i)) n = adlerFold a b (m + n) := by
  rw [adlerFold_eq, accFields_adlerFold, reduceFields_unreducedFold, ← unreducedFold_add, ← adlerFold_eq]

/-! ### The serial recurrence -/

/-- R181: one step reduces the fields after a byte. -/
theorem serialStep_eq (b : Nat) (s : Nat × Nat) : serialStep b s = reduceFields (s.1 + b, s.2 + (s.1 + b)) := by
  simp [serialStep, reduceFields]

theorem serialStep_reduceFields (b : Nat) (s : Nat × Nat) : serialStep b (reduceFields s) = serialStep b s := by
  simp [serialStep, reduceFields]

/-- R181, R184: after its first byte the recurrence holds the closed form's fields. -/
theorem serialFold_succ_eq (b : Nat → Nat) (n : Nat) (s : Nat × Nat) :
    serialFold b (n + 1) s = reduceFields (unreducedFold b (n + 1) s) := by
  induction n with
  | zero => rw [unreducedFold_succ, unreducedFold_zero, ← serialStep_eq]; rfl
  | succ n ih =>
    calc serialFold b (n + 2) s
      _ = serialStep (b (n + 1)) (serialFold b (n + 1) s) := rfl
      _ = serialStep (b (n + 1)) (unreducedFold b (n + 1) s) := by rw [ih, serialStep_reduceFields]
      _ = reduceFields (unreducedFold b (n + 2) s) := by rw [serialStep_eq, ← unreducedFold_succ]

/-- R181, R184: the recurrence holds the closed form's fields where it takes a byte, or takes none from reduced fields. -/
theorem serialFold_eq (b : Nat → Nat) {n : Nat} {s : Nat × Nat} (h : 0 < n ∨ reduceFields s = s) :
    serialFold b n s = reduceFields (unreducedFold b n s) := by
  cases n with
  | zero =>
    have hs : reduceFields s = s := h.resolve_left (Nat.lt_irrefl 0)
    rw [unreducedFold_zero, hs]
    rfl
  | succ n => exact serialFold_succ_eq b n s

/-! ### The bound -/

/-- R183: twice the integers after `k` bytes, from fields up to `field`. -/
theorem unreducedFold_le {b : Nat → Nat} {field k : Nat} {s : Nat × Nat} (h1 : s.1 ≤ field) (h2 : s.2 ≤ field)
    (hb : ∀ j < k, b j ≤ 255) :
    (unreducedFold b k s).1 ≤ field + 255 * k ∧
      2 * (unreducedFold b k s).2 ≤ 2 * (field * (k + 1)) + 255 * k * (k + 1) := by
  induction k with
  | zero => simp [h1]; omega
  | succ k ih =>
    obtain ⟨ih1, ih2⟩ := ih fun j hj => hb j (by omega)
    have hk := hb k (by omega)
    rw [unreducedFold_succ]
    exact ⟨by omega, by linarith⟩

theorem unreducedFold_le_blockBound {b : Nat → Nat} {field k : Nat} {s : Nat × Nat} (h1 : s.1 ≤ field)
    (h2 : s.2 ≤ field) (hb : ∀ j < k, b j ≤ 255) : (unreducedFold b k s).2 ≤ blockBound field k := by
  obtain ⟨-, h⟩ := unreducedFold_le h1 h2 hb
  unfold blockBound
  omega

theorem blockBound_mono (field : Nat) {k m : Nat} (h : k ≤ m) : blockBound field k ≤ blockBound field m := by
  unfold blockBound
  gcongr

/-- R183: the bound rises with the block, so two neighbours decide the threshold. -/
theorem blockBound_le_iff {field x : Nat} (hle : blockBound field nmax ≤ x) (hlt : x < blockBound field (nmax + 1))
    (k : Nat) : blockBound field k ≤ x ↔ k ≤ nmax := by
  constructor
  · intro hk
    by_contra hgt
    have hmono : blockBound field (nmax + 1) ≤ blockBound field k := blockBound_mono field (Nat.lt_of_not_le hgt)
    omega
  · intro hk
    exact (blockBound_mono field hk).trans hle

/-- R183, R185: from fields that need not be canonical, 5552 bytes are the most that stay below 2^32. -/
theorem blockBound_anyFields_le_iff (k : Nat) : blockBound 65535 k ≤ 2 ^ 32 - 1 ↔ k ≤ nmax :=
  blockBound_le_iff (by decide) (by decide) k

/-- Settles O33: the bound rises with the block, and passes 2^32 - 1 between 5552 and 5553 from either range of fields. -/
theorem nmaxIsTheLargestSafeBlock : Obligations.NmaxIsTheLargestSafeBlock := by
  refine ⟨rfl, blockBound_anyFields_le_iff, blockBound_le_iff (by decide) (by decide), by decide, by decide, by decide,
    by decide, fun b field s1 s2 k h1 h2 hb => ?_⟩
  exact unreducedFold_le_blockBound (s := (s1, s2)) h1 h2 hb

end Sys2Proof.Machine
end

section
/-! PROOF. ADLER as a command (R192): its accumulator (R184, R186, R187), its frame (R224), the serial recurrence it
equals (R181), and its additivity over a split run (R193). -/

namespace Sys2Proof.Machine

/-! ### What an ADLER answers -/

/-- R192: the next state of an ADLER whose checks pass. -/
theorem exec_adler_of_passes {i : Instr} {s : State} (hi : isAdler i = true)
    (h : s.start = 0 ∨ s.count = 0 ∨ s.adlerLegal) :
    exec i s = .next (advanceIf (advBit i) s.start s.count { s with acc := adlerResult (initBit i) s }) := by
  rw [exec_of_isAdler hi, adlerCommand_of_legal h]

theorem eq_of_exec_adler {i : Instr} {s t : State} (hi : isAdler i = true)
    (h : s.start = 0 ∨ s.count = 0 ∨ s.adlerLegal) (hexec : exec i s = .next t) :
    t = advanceIf (advBit i) s.start s.count { s with acc := adlerResult (initBit i) s } := by
  rw [exec_adler_of_passes hi h] at hexec
  exact (Host.Outcome.next.inj hexec).symm

/-- R192, R224: an ADLER has left its accumulator and the write-back, or has recorded its fault. -/
theorem exec_adler_cases {i : Instr} {s t : State} (hi : isAdler i = true) (h : exec i s = .next t) :
    t = advanceIf (advBit i) s.start s.count { s with acc := adlerResult (initBit i) s } ∨
      ∃ k, t = raiseFault k (encode i) s := by
  rw [exec_of_isAdler hi] at h
  obtain ⟨-, ht⟩ | ⟨k, -, ht⟩ := checked_next_cases h
  · exact .inl ht
  · exact .inr ⟨k, ht⟩

/-! ### The accumulator it leaves -/

theorem start_ne_zero {s : State} (h : s.addr ≠ 0) : s.start ≠ 0 := fun hzero => h (BitVec.eq_of_toNat_eq hzero)

theorem adlerResult_of_start_zero {s : State} (h : s.start = 0) (init : Bool) : adlerResult init s = accIdentity :=
  if_pos h

theorem adlerResult_of_count_zero {s : State} (hstart : s.start ≠ 0) (hcount : s.count = 0) (init : Bool) :
    adlerResult init s = startAcc init s := by
  rw [adlerResult, if_neg hstart, if_pos hcount]

theorem adlerResult_of_legal {s : State} (h : s.adlerLegal) (init : Bool) :
    adlerResult init s = adlerFold (startAcc init s) (bytesAt s.mem s.start) s.count := by
  obtain ⟨hstart, hcount, -, -⟩ := h
  rw [adlerResult, if_neg hstart.ne', if_neg hcount.ne']

/-- Settles O24: the checks of a legal ADLER pass, and it folds the closed form. -/
theorem adlerFoldsTheClosedForm : Obligations.AdlerFoldsTheClosedForm := by
  intro i s hi hlegal
  refine ⟨_, exec_adler_of_passes hi (.inr (.inr hlegal)), ?_, fun hadv => by simp [hadv], fun hadv hlt => ?_, by simp⟩
  · rw [advanceIf_acc, adlerResult_of_legal hlegal]
    rfl
  · rw [advanceIf_addr, if_pos hadv, if_pos (show s.start + s.count < addressSpace from hlt), BitVec.toNat_ofNat,
      Nat.mod_eq_of_lt hlt]

/-- R104: a write-back whose sum is the count alone, as with the null source. -/
theorem advanceIf_from_zero (adv : Bool) (s u : State) :
    advanceIf adv 0 s.count u = { u with addr := if adv then s.len else u.addr } := by
  cases adv with
  | false => rfl
  | true =>
    have hlt : 0 + s.count < addressSpace := by rw [Nat.zero_add]; exact s.len.isLt
    have hlen : BitVec.ofNat 64 (0 + s.count) = s.len := by simp [State.count]
    rw [advanceIf, if_pos rfl, advance, if_pos hlt, hlen]
    rfl

/-- R104: a write-back of no bytes leaves ADDR. -/
theorem advanceIf_no_bytes (adv : Bool) (s : State) : advanceIf adv s.start 0 s = s := by
  cases adv with
  | false => rfl
  | true =>
    have hlt : s.start + 0 < addressSpace := s.addr.isLt
    have haddr : BitVec.ofNat 64 (s.start + 0) = s.addr := by simp [State.start]
    rw [advanceIf, if_pos rfl, advance, if_pos hlt, haddr]

/-- Settles O25: the null source passes every check, and its result comes before every other. -/
theorem nullSourceGivesTheIdentity : Obligations.NullSourceGivesTheIdentity := by
  intro i s m hi haddr
  have hstart : State.start { s with mem := m } = 0 := by simp [State.start, haddr]
  rw [exec_adler_of_passes hi (.inl hstart), adlerResult_of_start_zero hstart, hstart, advanceIf_from_zero]
  rfl

/-- Settles O26: a count of 0 passes every check, and the write-back adds nothing to ADDR. -/
theorem zeroLengthKeepsTheAccumulator : Obligations.ZeroLengthKeepsTheAccumulator := by
  intro i s m hi haddr hlen
  have hstart : State.start { s with mem := m } ≠ 0 := start_ne_zero haddr
  have hcount : State.count { s with mem := m } = 0 := by simp [State.count, hlen]
  rw [exec_adler_of_passes hi (.inr (.inl hcount)), adlerResult_of_count_zero hstart hcount, hcount]
  exact congrArg _ (advanceIf_no_bytes (advBit i) { s with mem := m, acc := startAcc (initBit i) { s with mem := m } })

/-- Settles O27: the write-back writes ADDR alone, and a fault's record neither ACC nor ADDR. -/
theorem adlerFrame : Obligations.AdlerFrame := by
  intro i s t hi h
  obtain rfl | ⟨k, rfl⟩ := exec_adler_cases hi h
  · simp +contextual
  · simp

/-- R180, R185: the closed form leaves reduced fields, from any accumulator. -/
theorem adlerFold_canonical (a : Word32) (b : Nat → Nat) (n : Nat) :
    accS1 (adlerFold a b n) < 65521 ∧ accS2 (adlerFold a b n) < 65521 := by
  have h := reduceFields_lt (unreducedFold b n (accFields a))
  rwa [← accFields_adlerFold] at h

/-- Settles O28: the identity and the closed form hold reduced fields. -/
theorem adlerLeavesCanonicalFields : Obligations.AdlerLeavesCanonicalFields := by
  intro i s t hi h hexec
  obtain rfl := eq_of_exec_adler hi (h.imp_right .inr) hexec
  rw [advanceIf_acc]
  obtain hstart | hlegal := h
  · simp only [adlerResult_of_start_zero hstart]
    decide
  · simp only [adlerResult_of_legal hlegal]
    exact adlerFold_canonical _ _ _

/-- Settles O29: a legal ADLER takes a byte, so the recurrence holds the closed form's fields. -/
theorem adlerEqualsTheSerialRecurrence : Obligations.AdlerEqualsTheSerialRecurrence := by
  refine ⟨fun b n s1 s2 => ⟨rfl, rfl⟩, fun i s t hi hlegal hexec => ?_⟩
  obtain rfl := eq_of_exec_adler hi (.inr (.inr hlegal)) hexec
  have hcount : 0 < s.count := hlegal.2.1
  have hfold : accFields (adlerResult (initBit i) s) =
      serialFold (bytesAt s.mem s.start) s.count (accFields (startAcc (initBit i) s)) := by
    rw [adlerResult_of_legal hlegal, accFields_adlerFold, serialFold_eq _ (.inl hcount)]
  rw [advanceIf_acc]
  exact Prod.ext_iff.mp hfold

/-! ### Two parts of a run -/

/-- R186, R193: the accumulator after a run that may be empty. -/
def foldRun (a : Word32) (b : Nat → Nat) (n : Nat) : Word32 := if n = 0 then a else adlerFold a b n

theorem foldRun_zero (a : Word32) (b : Nat → Nat) : foldRun a b 0 = a := if_pos rfl

/-- R192: an ADLER with a source folds its run, empty or not. -/
theorem adlerResult_eq_foldRun {s : State} (h : s.start ≠ 0) (init : Bool) :
    adlerResult init s = foldRun (startAcc init s) (bytesAt s.mem s.start) s.count := if_neg h

/-- R193: where the second part is empty, what its bytes would be plays no part. -/
theorem foldRun_foldRun {a : Word32} {b c : Nat → Nat} {m n : Nat} (hc : n ≠ 0 → c = fun i => b (m + i)) :
    foldRun (foldRun a b m) c n = foldRun a b (m + n) := by
  obtain rfl | hn := Nat.eq_zero_or_pos n
  · exact foldRun_zero _ c
  · obtain rfl := hc hn.ne'
    obtain rfl | hm := Nat.eq_zero_or_pos m
    · simp [foldRun_zero]
    · rw [foldRun, foldRun, foldRun, if_neg hn.ne', if_neg hm.ne', if_neg (by omega), adlerFold_adlerFold]

/-- R193: a part of the run is accessible where the whole is. -/
theorem rangeAccessible_part {p : Impl} {lo n lo' n' : Nat} (h : rangeAccessible p lo n = true) (hlo : lo ≤ lo')
    (hhi : lo' + n' ≤ lo + n) : rangeAccessible p lo' n' = true := by
  rw [rangeAccessible_iff] at h ⊢
  exact fun a ha ha' => h a (by omega) (by omega)

/-- R192: an ADLER with a source, whose run if any lies in an accessible range of the address space, folds it. -/
theorem exec_adler_of_range {i : Instr} {s : State} {lo n : Nat} (hi : isAdler i = true) (hstart : s.addr ≠ 0)
    (hspace : lo + n ≤ 2 ^ 64) (haccess : rangeAccessible s.impl lo n = true)
    (hrun : s.count ≠ 0 → lo ≤ s.start ∧ s.start + s.count ≤ lo + n) :
    ∃ t, exec i s = .next t ∧ t.acc = foldRun (startAcc (initBit i) s) (bytesAt s.mem s.start) s.count ∧
      t.mem = s.mem ∧ t.impl = s.impl ∧ t.faultLog = s.faultLog := by
  have hstart' : s.start ≠ 0 := start_ne_zero hstart
  have hpasses : s.start = 0 ∨ s.count = 0 ∨ s.adlerLegal := by
    refine .inr (or_iff_not_imp_left.mpr fun hcount => ?_)
    obtain ⟨hlo, hhi⟩ := hrun hcount
    exact ⟨Nat.pos_of_ne_zero hstart', Nat.pos_of_ne_zero hcount, hhi.trans hspace, rangeAccessible_part haccess hlo hhi⟩
  exact ⟨_, exec_adler_of_passes hi hpasses, by rw [advanceIf_acc, adlerResult_eq_foldRun hstart'], by simp⟩

/-- R193: the bytes of the second part are the whole run's from the first part's end on. -/
theorem bytesAt_add (m : Memory) (src n : Nat) : bytesAt m (src + n) = fun i => bytesAt m src (n + i) := by
  funext i
  rw [bytesAt, bytesAt, Nat.add_assoc]

/-- Settles O30: each of the three commands folds its part of the accessible range. -/
theorem adlerIsAdditive : Obligations.AdlerIsAdditive := by
  intro i j k s n1 n2 src2 hi hj hk hinit hinit' hpos hspace haccess hsrc2 hnext
  have hsrc : s.addr ≠ 0 := fun h => by simp [State.start, h] at hpos
  have hsum : (n1 + n2).toNat = n1.toNat + n2.toNat := by rw [BitVec.toNat_add, Nat.mod_eq_of_lt (by omega)]
  have hend : n2.toNat ≠ 0 → src2.toNat = s.start + n1.toNat := fun h => hnext fun hzero => h (by simp [hzero])
  rw [Nat.add_assoc] at hspace
  obtain ⟨t, ht, htacc, htmem, htimpl, htlog⟩ := exec_adler_of_range (s := { s with len := n1 }) hi hsrc hspace haccess
    fun _ => ⟨le_rfl, Nat.add_le_add_left (Nat.le_add_right _ _) _⟩
  obtain ⟨u, hu, huacc, -, -, hulog⟩ := exec_adler_of_range (s := { t with addr := src2, len := n2 }) hj hsrc2 hspace
    (htimpl ▸ haccess) fun hcount => by
      have hsrc2 : src2.toNat = s.start + n1.toNat := hend hcount
      show s.start ≤ src2.toNat ∧ src2.toNat + n2.toNat ≤ _
      omega
  obtain ⟨v, hv, hvacc, -, -, hvlog⟩ := exec_adler_of_range (s := { s with len := n1 + n2 }) hk hsrc hspace haccess
    fun _ => ⟨le_rfl, (congrArg (s.start + ·) hsum).le⟩
  refine ⟨t, u, v, ht, hu, hv, ?_, hulog.trans htlog, hvlog⟩
  calc u.acc
    _ = foldRun t.acc (bytesAt s.mem src2.toNat) n2.toNat := by rw [huacc, hinit, htmem]; rfl
    _ = foldRun (startAcc (initBit i) s) (bytesAt s.mem s.start) (n1.toNat + n2.toNat) := by
      rw [htacc]
      exact foldRun_foldRun fun hn2 => by rw [hend hn2, bytesAt_add]; rfl
    _ = v.acc := by rw [hvacc, hinit', ← hsum]; rfl

end Sys2Proof.Machine
end

section
/-! PROOF. ADLER's lane datapath (R188 to R191): the sums of the lanes are the closed form's integers modulo 2^32, no
block overflows (R189), and block after block the bytes still to come complete the same fold. -/

namespace Sys2Proof.Machine

/-! ### One block -/

/-- R188: the lanes' sums hold the integers `s`, where vs3 counts as it does once folded at the block's end. -/
structure LanesHold (w lanes : Nat) (s : Nat × Nat) (v : Lanes) : Prop where
  sized : v.sized lanes
  vs1 : hsum v.vs1 = BitVec.ofNat 32 s.1
  vs2 : hsum v.vs2 + BitVec.ofNat 32 w * hsum v.vs3 = BitVec.ofNat 32 s.2

theorem startLanes_hold {lanes : Nat} (w : Nat) (s : Nat × Nat) (h : 0 < lanes) :
    LanesHold w lanes s (startLanes lanes s.1 s.2) := by
  obtain ⟨hsized, h1, h2, h3⟩ := startLanes_spec s.1 s.2 h
  exact ⟨hsized, h1, by simp [h2, h3]⟩

/-- R188: a chunk folds its `w` bytes; vs3 takes vs1 before the update, which is the `w * s1` of the closed form. -/
theorem chunkStep_holds {w lanes : Nat} (part : Partition) (b : Nat → Nat) (p c : Nat) {s : Nat × Nat} {v : Lanes}
    (h : 0 < lanes) (hv : LanesHold w lanes s v) :
    LanesHold w lanes (unreducedFold (fun j => b (p + c * w + j)) w s) (chunkStep w lanes part b p c v) := by
  obtain ⟨hsized, h1, h2⟩ := hv
  obtain ⟨hsized', h3', h1', h2'⟩ := chunkStep_spec part b p c h hsized
  refine ⟨hsized', ?_, ?_⟩
  · rw [h1', h1, ← BitVec.ofNat_add]
    rfl
  · calc _
      _ = (hsum v.vs2 + BitVec.ofNat 32 w * hsum v.vs3) + BitVec.ofNat 32 w * hsum v.vs1 +
          BitVec.ofNat 32 (sumTo (fun j => (w - j) * b (p + c * w + j)) w) := by
        rw [h2', h3', BitVec.mul_add]; ac_rfl
      _ = BitVec.ofNat 32 (unreducedFold (fun j => b (p + c * w + j)) w s).2 := by
        rw [h2, h1, ← BitVec.ofNat_mul, ← BitVec.ofNat_add, ← BitVec.ofNat_add]; rfl

/-- R188: after `k` chunks the lanes hold the integers of `k * w` bytes. -/
theorem chunks_hold {w lanes : Nat} (part : Partition) (b : Nat → Nat) (p k : Nat) (s : Nat × Nat) (h : 0 < lanes) :
    LanesHold w lanes (unreducedFold (fun i => b (p + i)) (k * w) s)
      (repeatSteps (fun c v => chunkStep w lanes part b p c v) k (startLanes lanes s.1 s.2)) := by
  induction k with
  | zero => rw [Nat.zero_mul, unreducedFold_zero]; exact startLanes_hold w s h
  | succ k ih =>
    rw [Nat.succ_mul, unreducedFold_add]
    simpa only [repeatSteps, Nat.add_assoc] using chunkStep_holds part b p k h ih

/-- R188: the block's end folds vs3 into vs2, and the sums are the integers modulo 2^32. -/
theorem foldBlock_eq {w lanes k : Nat} (part : Partition) (b : Nat → Nat) (p : Nat) (s : Nat × Nat) (h : 0 < lanes)
    (hw : w ∣ k) :
    foldBlock w lanes part b p k s =
      reduceFields ((unreducedFold (fun i => b (p + i)) k s).1 % 2 ^ 32,
        (unreducedFold (fun i => b (p + i)) k s).2 % 2 ^ 32) := by
  have hv := chunks_hold (w := w) part b p (k / w) s h
  rw [Nat.div_mul_cancel hw] at hv
  obtain ⟨⟨-, hlen2, -⟩, h1, h2⟩ := hv
  simp only [foldBlock, reduceFields]
  rw [hsum_addLanes (by rw [hlen2, length_moveLanes]), hsum_moveLanes _ _ h, hsum_map_mul, h1, h2, BitVec.toNat_ofNat,
    BitVec.toNat_ofNat]

/-- R189: a block of at most NMAX bytes overflows no sum, so it is the closed form's fields. -/
theorem foldBlock_eq_reduceFields {w lanes k : Nat} (part : Partition) {b : Nat → Nat} {p : Nat} {s : Nat × Nat}
    (h : 0 < lanes) (hw : w ∣ k) (hk : k ≤ nmax) (h1 : s.1 ≤ 65535) (h2 : s.2 ≤ 65535)
    (hb : ∀ j < k, b (p + j) ≤ 255) :
    foldBlock w lanes part b p k s = reduceFields (unreducedFold (fun i => b (p + i)) k s) := by
  obtain ⟨hle1, -⟩ := unreducedFold_le h1 h2 hb
  have hle2 := unreducedFold_le_blockBound h1 h2 hb
  have hbound : blockBound 65535 k ≤ 2 ^ 32 - 1 := (blockBound_anyFields_le_iff k).mpr hk
  have hnmax : nmax = 5552 := rfl
  rw [foldBlock_eq part b p s h hw, Nat.mod_eq_of_lt (by omega), Nat.mod_eq_of_lt (by omega)]

/-! ### The block loop -/

/-- R188, D34: a block is whole chunks, at most NMAX bytes of those left. -/
theorem blockLength_spec (w rem : Nat) :
    w ∣ blockLength w rem ∧ blockLength w rem ≤ nmax ∧ blockLength w rem ≤ rem := by
  refine ⟨Nat.dvd_sub_mod _, ?_, ?_⟩ <;> unfold blockLength <;> omega

/-- R188: where the block loop stands, from fields `s` and with `n` bytes in all: folding the bytes left completes the
fold of all of them, and the serial tail (R190) will leave reduced fields. -/
structure LoopHolds (b : Nat → Nat) (n : Nat) (s : Nat × Nat) (l : LoopState) : Prop where
  position : l.p + l.rem = n
  fields : l.s.1 ≤ 65535 ∧ l.s.2 ≤ 65535
  folded : reduceFields (unreducedFold (fun i => b (l.p + i)) l.rem l.s) = reduceFields (unreducedFold b n s)
  tail : 0 < l.rem ∨ reduceFields l.s = l.s

/-- R188: one block, of whole chunks and at most NMAX bytes, brings the loop on. -/
theorem LoopHolds.block {w lanes n k : Nat} {part : Partition} {b : Nat → Nat} {s : Nat × Nat} {l : LoopState}
    (hl : LoopHolds b n s l) (h : 0 < lanes) (hb : ∀ j < n, b j ≤ 255) (hw : w ∣ k) (hk : k ≤ nmax) (hrem : k ≤ l.rem) :
    LoopHolds b n s ⟨l.p + k, l.rem - k, foldBlock w lanes part b l.p k l.s⟩ := by
  obtain ⟨hpos, ⟨h1, h2⟩, hfolded, -⟩ := hl
  rw [foldBlock_eq_reduceFields part h hw hk h1 h2 fun j hj => hb _ (by omega)]
  obtain ⟨hlt1, hlt2⟩ := reduceFields_lt (unreducedFold (fun i => b (l.p + i)) k l.s)
  refine ⟨by dsimp only; omega, ⟨by dsimp only; omega, by dsimp only; omega⟩, ?_, .inr (reduceFields_reduceFields _)⟩
  calc _
    _ = reduceFields (unreducedFold (fun i => b (l.p + (k + i))) (l.rem - k)
          (unreducedFold (fun i => b (l.p + i)) k l.s)) := by
      simp only [reduceFields_unreducedFold, Nat.add_assoc]
    _ = reduceFields (unreducedFold (fun i => b (l.p + i)) l.rem l.s) := by
      rw [← unreducedFold_add (fun i => b (l.p + i)), Nat.add_sub_cancel' hrem]
    _ = reduceFields (unreducedFold b n s) := hfolded

theorem blockLoop_holds {w lanes n : Nat} (part : Partition) {b : Nat → Nat} {s : Nat × Nat} (h : 0 < lanes)
    (hb : ∀ j < n, b j ≤ 255) (fuel : Nat) {l : LoopState} (hl : LoopHolds b n s l) :
    LoopHolds b n s (blockLoop w lanes part b fuel l) := by
  induction fuel generalizing l with
  | zero => exact hl
  | succ fuel ih =>
    obtain ⟨hw, hk, hrem⟩ := blockLength_spec w l.rem
    rw [blockLoop]
    split_ifs
    · exact ih (hl.block h hb hw hk hrem)
    · exact hl

/-! ### The datapath -/

/-- R190: the serial tail takes the bytes left, to the closed form's fields. -/
theorem LoopHolds.tail_completes {b : Nat → Nat} {n : Nat} {s : Nat × Nat} {l : LoopState} (hl : LoopHolds b n s l) :
    serialFold (fun i => b (l.p + i)) l.rem l.s = reduceFields (unreducedFold b n s) := by
  rw [serialFold_eq _ hl.tail, hl.folded]

/-- R5: an implementation with chunks has a lane. -/
theorem Impl.lanes_pos {p : Impl} (h : p.wellFormed = true) (hw : p.width ≠ .w1) : 0 < p.lanes := by
  unfold Impl.wellFormed at h
  split at h <;> simp_all

/-- Settles O32: the loop keeps the fold of all bytes within reach, and its tail completes it. -/
theorem adlerDatapathReachesTheClosedForm : Obligations.AdlerDatapathReachesTheClosedForm := by
  intro p part a b n hp hb hn
  have h1 := accS1_lt a
  have h2 := accS2_lt a
  have hstart : LoopHolds b n (accFields a) ⟨0, n, accFields a⟩ :=
    ⟨Nat.zero_add n, ⟨Nat.le_of_lt_succ h1, Nat.le_of_lt_succ h2⟩, by simp only [Nat.zero_add], .inl hn⟩
  have hend : LoopHolds b n (accFields a) (if p.width = .w1 then ⟨0, n, accFields a⟩ else
      blockLoop p.width.bytes p.lanes part b n ⟨0, n, accFields a⟩) := by
    split_ifs with hw
    · exact hstart
    · exact blockLoop_holds part (Impl.lanes_pos hp hw) hb n hstart
  rw [adlerFold_eq, ← hend.tail_completes]
  rfl

/-- Settles O31: the operands are no parameters of the implementation, and every datapath reaches the one closed form. -/
theorem adlerIsChunkWidthIndependent : Obligations.AdlerIsChunkWidthIndependent := by
  refine ⟨fun i s t t' p hi hlegal hlegal' h h' => ?_, fun p p' part part' a b n hp hp' hb hn => ?_⟩
  · obtain rfl := eq_of_exec_adler hi (.inr (.inr hlegal)) h
    obtain rfl := eq_of_exec_adler hi (.inr (.inr hlegal')) h'
    simp only [advanceIf_acc, advanceIf_addr]
    exact ⟨rfl, rfl⟩
  · exact (adlerDatapathReachesTheClosedForm p part a b n hp hb hn).trans
      (adlerDatapathReachesTheClosedForm p' part' a b n hp' hb hn).symm

end Sys2Proof.Machine
end

section
/-! PROOF. The faults of the block (60_exceptions.md): the chain of checks, and that it reports the first that fails
(R221, R222); a fault writes its record and nothing else (R224, R225); and the idle block (R235). -/

namespace Sys2Proof.Machine

/-! ### The idle block -/

/-- Settles O7: with no operation pending, `step` has nothing to apply. -/
theorem idleBlockKeepsItsState : Obligations.IdleBlockKeepsItsState := by
  intro s h
  rw [step, h]

/-! ### A fault's record -/

/-- R224, R225: a CMD write leaves the history as it is, or records a fault with its word and does nothing else. -/
theorem issue_next_cases {c : Word32} {s t : State} (h : issue c s = .next t) :
    t.faultLog = s.faultLog ∨ (s.fault = false ∧ ∃ k, k ≠ .none ∧ t = raiseFault k c s) := by
  obtain ⟨-, e⟩ | ⟨hf, -, e⟩ | ⟨hf, i, hd, e⟩ := issue_cases c s <;> rw [e] at h
  · cases h
    exact .inl rfl
  · cases h
    exact .inr ⟨hf, .illegalCmd, by decide, rfl⟩
  · obtain rfl := (decode_eq_instr_iff c i).mp hd
    obtain ⟨k, hk, ht⟩ | ⟨-, rfl⟩ | ⟨-, -, rfl⟩ | ⟨-, rfl⟩ := exec_next_cases h
    · exact .inr ⟨hf, k, hk, ht⟩
    · exact .inl rfl
    · exact .inl (by simp)
    · exact .inl (by simp)

/-- Settles O37: a CMD write that lengthens the history is its fault's record. -/
theorem faultsArePreciseAndRecordTheWord : Obligations.FaultsArePreciseAndRecordTheWord := by
  intro c s t h hlog
  obtain hsame | ⟨hf, k, hk, rfl⟩ := issue_next_cases h
  · exact absurd hsame hlog
  · exact ⟨hf, hk, rfl⟩

/-! ### The chain of checks -/

theorem count_ne_zero {s : State} (h : s.len ≠ 0) : s.count ≠ 0 := fun hzero => h (BitVec.eq_of_toNat_eq hzero)

theorem distance_ne_zero {s : State} (h : s.dist ≠ 0) : s.distance ≠ 0 := fun hzero =>
  h (BitVec.eq_of_toNat_eq hzero)

/-- R55: the check over a range fails exactly when some byte of it is not accessible. -/
theorem rangeAccessible_eq_false_iff (p : Impl) (lo n : Nat) :
    rangeAccessible p lo n = false ↔ ∃ a, lo ≤ a ∧ a < lo + n ∧ p.isAccessible a = false := by
  rw [← Bool.not_eq_true, rangeAccessible_iff]
  simp

/-- R56, R57: where the sources do not start below address 0, both footprints of an EXPAND end together. -/
theorem sources_add_footprint {s : State} (h : s.distance ≤ s.start) :
    s.start - s.distance + (s.distance + s.writeSpan) = s.start + s.writeSpan := by omega

theorem checkExpand_of_len_zero {s : State} (h : s.len = 0) : checkExpand s = some .zeroLen :=
  if_pos (congrArg BitVec.toNat h)

theorem checkExpand_of_dist_zero {s : State} (hcount : s.count ≠ 0) (h : s.dist = 0) :
    checkExpand s = some .zeroDist :=
  (if_neg hcount).trans (if_pos (congrArg BitVec.toNat h))

theorem checkExpand_of_range {s : State} (hcount : s.count ≠ 0) (hdist : s.distance ≠ 0)
    (h : s.start < s.distance ∨ addressSpace < s.start + s.writeSpan) : checkExpand s = some .range := by
  rw [checkExpand, if_neg hcount, if_neg hdist, if_pos h]

/-- R221, R222: past the RANGE check, EXPAND's chain ends with the accessibility of its footprints. -/
theorem checkExpand_of_in_range {s : State} (hcount : s.count ≠ 0) (hdist : s.distance ≠ 0)
    (h : ¬ (s.start < s.distance ∨ addressSpace < s.start + s.writeSpan)) :
    checkExpand s =
      if rangeAccessible s.impl (s.start - s.distance) (s.distance + s.writeSpan) then none else some .access := by
  rw [checkExpand, if_neg hcount, if_neg hdist, if_neg h]

theorem checkExpand_of_not_accessible {s : State} (hcount : s.count ≠ 0) (hdist : s.distance ≠ 0)
    (h : ¬ (s.start < s.distance ∨ addressSpace < s.start + s.writeSpan))
    (hbyte : ∃ a, s.start - s.distance ≤ a ∧ a < s.start + s.writeSpan ∧ s.impl.isAccessible a = false) :
    checkExpand s = some .access := by
  rw [← sources_add_footprint (by omega), ← rangeAccessible_eq_false_iff] at hbyte
  rw [checkExpand_of_in_range hcount hdist h, if_neg (by simp [hbyte])]

theorem checkExpand_of_accessible {s : State} (hcount : s.count ≠ 0) (hdist : s.distance ≠ 0)
    (h : ¬ (s.start < s.distance ∨ addressSpace < s.start + s.writeSpan))
    (hbytes : ∀ a, s.start - s.distance ≤ a → a < s.start + s.writeSpan → s.impl.isAccessible a = true) :
    checkExpand s = none := by
  rw [← sources_add_footprint (by omega), ← rangeAccessible_iff] at hbytes
  rw [checkExpand_of_in_range hcount hdist h, if_pos hbytes]

theorem checkAdler_of_no_bytes {s : State} (h : s.addr = 0 ∨ s.len = 0) : checkAdler s = none :=
  if_pos (h.imp (congrArg BitVec.toNat) (congrArg BitVec.toNat))

theorem checkAdler_of_range {s : State} (hstart : s.start ≠ 0) (hcount : s.count ≠ 0)
    (h : addressSpace < s.start + s.count) : checkAdler s = some .range := by
  rw [checkAdler, if_neg (by simp [hstart, hcount]), if_pos h]

/-- R221, R222: past the RANGE check, ADLER's chain ends with the accessibility of its footprint. -/
theorem checkAdler_of_in_range {s : State} (hstart : s.start ≠ 0) (hcount : s.count ≠ 0)
    (h : s.start + s.count ≤ addressSpace) :
    checkAdler s = if rangeAccessible s.impl s.start s.count then none else some .access := by
  rw [checkAdler, if_neg (by simp [hstart, hcount]), if_neg h.not_gt]

theorem checkAdler_of_not_accessible {s : State} (hstart : s.start ≠ 0) (hcount : s.count ≠ 0)
    (h : s.start + s.count ≤ addressSpace)
    (hbyte : ∃ a, s.start ≤ a ∧ a < s.start + s.count ∧ s.impl.isAccessible a = false) :
    checkAdler s = some .access := by
  rw [← rangeAccessible_eq_false_iff] at hbyte
  rw [checkAdler_of_in_range hstart hcount h, if_neg (by simp [hbyte])]

theorem checkAdler_of_accessible {s : State} (hstart : s.start ≠ 0) (hcount : s.count ≠ 0)
    (h : s.start + s.count ≤ addressSpace)
    (hbytes : ∀ a, s.start ≤ a → a < s.start + s.count → s.impl.isAccessible a = true) : checkAdler s = none := by
  rw [← rangeAccessible_iff] at hbytes
  rw [checkAdler_of_in_range hstart hcount h, if_pos hbytes]

/-! ### What a CMD write reports -/

/-- R100: with no fault pending, a CMD write of a command's word is the command. -/
theorem issue_encode {s : State} (hf : s.fault = false) (i : Instr) : issue (encode i) s = exec i s :=
  issue_of_decode hf (encodeThenDecodeIsIdentity i)

theorem issue_illegal {c : Word32} {why : Illegal} {s : State} (hf : s.fault = false) (hd : decode c = .illegal why) :
    issue c s = .next (raiseFault .illegalCmd c s) :=
  issue_of_no_command hf (by simp [hd])

/-- R222: an EXPAND whose chain ends in a cause reports it. -/
theorem issue_expand_fault {i : Instr} {s : State} {k : Cause} (hi : isExpand i = true) (hf : s.fault = false)
    (h : checkExpand s = some k) : issue (encode i) s = .next (raiseFault k (encode i) s) := by
  rw [issue_encode hf, exec_of_isExpand hi, expandCommand, h]
  rfl

/-- R221: an EXPAND that passes the chain takes no fault. -/
theorem issue_expand_passes {i : Instr} {s : State} (hi : isExpand i = true) (hf : s.fault = false)
    (h : checkExpand s = none) : ∃ t, issue (encode i) s = .next t ∧ t.fault = false ∧ t.faultLog = s.faultLog := by
  have hlegal := (checkExpand_none_iff s).mp h
  exact ⟨_, (issue_encode hf i).trans (exec_of_expandLegal hi hlegal), by simp [hf], by simp⟩

/-- R222: an ADLER whose chain ends in a cause reports it. -/
theorem issue_adler_fault {i : Instr} {s : State} {k : Cause} (hi : isAdler i = true) (hf : s.fault = false)
    (h : checkAdler s = some k) : issue (encode i) s = .next (raiseFault k (encode i) s) := by
  rw [issue_encode hf, exec_of_isAdler hi, adlerCommand, h]
  rfl

/-- R221: an ADLER that passes the chain takes no fault. -/
theorem issue_adler_passes {i : Instr} {s : State} (hi : isAdler i = true) (hf : s.fault = false)
    (h : checkAdler s = none) : ∃ t, issue (encode i) s = .next t ∧ t.fault = false ∧ t.faultLog = s.faultLog := by
  have hpasses := (checkAdler_none_iff s).mp h
  exact ⟨_, (issue_encode hf i).trans (exec_adler_of_passes hi hpasses), by simp [hf], by simp⟩

/-- Settles O36: an illegal word and a pending fault come before every check, NOP has none, and EXPAND and ADLER report
what their chain of checks ends in. -/
theorem firstFailingCheckIsReported : Obligations.FirstFailingCheckIsReported := by
  refine ⟨fun c why s hf hd => issue_illegal hf hd, fun c s hf => issue_of_fault hf, fun s _ => issue_encode_nop s,
    fun i s hi hf => ⟨fun hlen => ?_, fun hlen hdist => ?_, fun hlen hdist hrange => ?_,
      fun hlen hdist hrange hbyte => ?_, fun hlen hdist hrange hbytes => ?_⟩,
    fun i s hi hf => ⟨fun hnone => ?_, fun haddr hlen hrange => ?_, fun haddr hlen hrange hbyte => ?_,
      fun haddr hlen hrange hbytes => ?_⟩⟩
  · exact issue_expand_fault hi hf (checkExpand_of_len_zero hlen)
  · exact issue_expand_fault hi hf (checkExpand_of_dist_zero (count_ne_zero hlen) hdist)
  · exact issue_expand_fault hi hf (checkExpand_of_range (count_ne_zero hlen) (distance_ne_zero hdist) hrange)
  · exact issue_expand_fault hi hf
      (checkExpand_of_not_accessible (count_ne_zero hlen) (distance_ne_zero hdist) hrange hbyte)
  · exact issue_expand_passes hi hf
      (checkExpand_of_accessible (count_ne_zero hlen) (distance_ne_zero hdist) hrange hbytes)
  · exact issue_adler_passes hi hf (checkAdler_of_no_bytes hnone)
  · exact issue_adler_fault hi hf (checkAdler_of_range (start_ne_zero haddr) (count_ne_zero hlen) hrange)
  · exact issue_adler_fault hi hf
      (checkAdler_of_not_accessible (start_ne_zero haddr) (count_ne_zero hlen) hrange hbyte)
  · exact issue_adler_passes hi hf
      (checkAdler_of_accessible (start_ne_zero haddr) (count_ne_zero hlen) hrange hbytes)

end Sys2Proof.Machine
end

section
/-! PROOF. Reset (70_reset_and_hazards.md): the values it leaves (R260), a reset that cuts a command short (R262), and
the margin between consecutive EXPANDs with ADV = 1 (R267). -/

namespace Sys2Proof.Machine

/-! ### The margin between consecutive EXPANDs -/

/-- R56: an EXPAND that has bytes to write has a footprint of at least one chunk. -/
theorem w_le_writeSpan {s : State} (h : 0 < s.count) : s.w ≤ s.writeSpan :=
  Nat.le_of_dvd (h.trans_le (count_le_writeSpan s)) (Nat.dvd_mul_right ..)

/-- R104: where the sum is below 2^64, a legal `expand.adv` leaves ADDR at the end of its run. -/
theorem start_of_exec_expandAdv {s t : State} (hlegal : s.expandLegal) (hlt : s.start + s.count < 2 ^ 64)
    (h : exec .expandAdv s = .next t) : t.start = s.start + s.count := by
  obtain rfl := eq_of_exec_expand rfl hlegal h
  rw [State.start, advanceIf_expandEffect_addr hlegal, if_pos (by decide), if_pos (show _ < addressSpace from hlt),
    BitVec.toNat_ofNat, Nat.mod_eq_of_lt hlt]

/-- Settles O17: the second EXPAND starts where the first run ends, so its sources and the first run lie before its
footprint; a margin is shorter than a chunk, and its footprint has at least one. -/
theorem nextAdvancedExpandCoversTheMargin : Obligations.NextAdvancedExpandCoversTheMargin := by
  intro s t u d l hlegal hlt ht hlegal' hu
  have hstart : t.start = s.start + s.count := start_of_exec_expandAdv hlegal hlt ht
  refine ⟨fun x hlo hhi => ⟨hstart.trans_le hlo, ?_⟩, fun x _ hx => hx.trans_eq hstart, fun x hx => ?_⟩
  · obtain ⟨hcount, -⟩ := hlegal'
    have hw : t.w = s.w := congrArg (fun p : Impl => p.width.bytes) (exec_keeps_impl ht)
    have hchunk : t.w ≤ ({ t with dist := d, len := l } : State).writeSpan := w_le_writeSpan hcount
    have hmargin : s.writeSpan < s.count + s.w := writeSpan_lt s
    omega
  · obtain rfl := eq_of_exec_expand rfl hlegal' hu
    exact advanceIf_expandEffect_read (expandEffect_cell_of_lt_start (hx.trans_eq hstart.symm))

/-! ### The footprint of an abandoned command -/

theorem abandonedSpan_of_fault {s : State} (hf : s.fault = true) (c : Word32) : abandonedSpan c s = 0 := if_pos hf

theorem abandonedSpan_of_illegal {c : Word32} {why : Illegal} (hd : decode c = .illegal why) (s : State) :
    abandonedSpan c s = 0 := by
  rw [abandonedSpan, hd]
  exact ite_self 0

/-- R102: only an EXPAND writes memory. -/
theorem abandonedSpan_of_not_isExpand {c : Word32} {i : Instr} (hd : decode c = .instr i) (hi : isExpand i = false)
    (s : State) : abandonedSpan c s = 0 := by
  rw [abandonedSpan, hd]
  cases i with
  | expand | expandAdv => cases hi
  | nop | adler | adlerAdv | adlerInit | adlerInitAdv => exact ite_self 0

/-- R102, R224: a command whose checks fail writes no memory. -/
theorem abandonedSpan_of_not_expandLegal {s : State} (h : ¬ s.expandLegal) (c : Word32) : abandonedSpan c s = 0 :=
  (abandonedSpan_cases c s).resolve_right fun ⟨_, hlegal⟩ => h hlegal

/-- R262: an accepted, legal EXPAND abandons its whole write footprint. -/
theorem abandonedSpan_of_expandLegal {c : Word32} {i : Instr} {s : State} (hd : decode c = .instr i)
    (hi : isExpand i = true) (hf : s.fault = false) (hlegal : s.expandLegal) : abandonedSpan c s = s.writeSpan := by
  have hchecks := (checkExpand_none_iff s).mpr hlegal
  rw [abandonedSpan, hf, hd]
  cases i with
  | nop | adler | adlerAdv | adlerInit | adlerInitAdv => cases hi
  | expand | expandAdv => exact if_pos hchecks

theorem isExpand_eq_false_of_isAdler {i : Instr} (h : isAdler i = true) : isExpand i = false := by
  rw [isExpand, eq_of_beq h]
  rfl

/-! ### Reset during a command -/

/-- R262: a step whose pending operation is a reset during the command with word `c`; it drops the rest of the host's
list, so it does not depend on it (log 14). -/
theorem step_of_resetDuring {s : State} {c : Word32} {rest : List HostOp} (h : s.host = .resetDuring c :: rest) :
    step s = .next (resetDuringCommand c s) :=
  step_of_host h

/-- R262: memory after a reset during a command: draws on the abandoned footprint. -/
theorem resetDuringCommand_mem (c : Word32) (s : State) :
    (resetDuringCommand c s).mem = s.mem.putRange s.start (fun j => .drawn (s.draws + j)) (abandonedSpan c s) := rfl

/-- R262: a command that abandons no footprint leaves memory as it was. -/
theorem resetDuringCommand_mem_of_span_zero {c : Word32} {s : State} (h : abandonedSpan c s = 0) :
    (resetDuringCommand c s).mem = s.mem := by
  rw [resetDuringCommand_mem, h]
  rfl

/-- R262: each byte of memory after a reset during a command. -/
theorem resetDuringCommand_read (c : Word32) (s : State) (x : Nat) :
    (resetDuringCommand c s).mem.read x =
      if s.start ≤ x ∧ x < s.start + abandonedSpan c s then Config.freeByte (s.draws + (x - s.start))
      else s.mem.read x := by
  rw [resetDuringCommand_mem, Memory.read_putRange]
  rfl

/-- Settles O49: the registers are those of any reset, and memory follows the abandoned footprint, which is all of a
legal EXPAND's and else empty. -/
theorem resetDuringCommandAbandonsIt : Obligations.ResetDuringCommandAbandonsIt := by
  intro s rest c h
  refine ⟨resetDuringCommand c s, step_of_resetDuring h, rfl, rfl, rfl, rfl, rfl, rfl, rfl, rfl, rfl, rfl, rfl, rfl,
    fun i hd hi hf hlegal => ?_, fun hnone => resetDuringCommand_mem_of_span_zero ?_⟩
  · have hspan := abandonedSpan_of_expandLegal hd hi hf hlegal
    refine ⟨fun j hj => ?_, fun x hx => ?_⟩
    · rw [resetDuringCommand_read, hspan, if_pos (by omega), Nat.add_sub_cancel_left]
    · rw [resetDuringCommand_read, hspan, if_neg hx]
  · obtain hf | hnot | rfl | ⟨i, hd, ha⟩ | ⟨why, hd⟩ := hnone
    · exact abandonedSpan_of_fault hf c
    · exact abandonedSpan_of_not_expandLegal hnot c
    · exact abandonedSpan_of_not_isExpand (encodeThenDecodeIsIdentity .nop) rfl s
    · exact abandonedSpan_of_not_isExpand hd (isExpand_eq_false_of_isAdler ha) s
    · exact abandonedSpan_of_illegal hd s

/-! ### The values after reset -/

/-- R260: the block's reset has nothing to do in the state after reset. -/
theorem blockReset_reset : blockReset State.reset = State.reset := rfl

/-- R26, R260: STATUS reads 0 after the block's reset, as each of its fields is 0. -/
theorem readReg_status_blockReset (s : State) : readReg .status (blockReset s) = 0 := by
  apply BitVec.eq_of_toNat_eq
  rw [readReg_status_toNat, blockReset_regime, blockReset_cause, blockReset_fault]
  rfl

/-- R222, R260: LEN is 0 after reset, so an EXPAND then fails its first check. -/
theorem exec_expand_reset : exec .expand State.reset = .next (raiseFault .zeroLen 0x00000001 State.reset) := by
  rw [exec_of_isExpand rfl, expandCommand, checkExpand_of_len_zero rfl]
  rfl

/-- Settles O41: the host's reset operation is the block's reset, of which the state after reset is a result too. -/
theorem resetLeavesTheSpecValues : Obligations.ResetLeavesTheSpecValues := by
  refine ⟨⟨rfl, ?_, rfl, rfl, rfl, rfl, rfl, rfl, rfl, rfl, rfl, exec_expand_reset⟩, fun s rest h => ?_⟩
  · rw [← blockReset_reset, readReg_status_blockReset]
  · exact ⟨blockReset { s with host := rest }, step_of_host h, rfl, readReg_status_blockReset _, rfl, rfl, rfl, rfl,
      rfl, rfl, rfl, rfl, rfl, rfl⟩

/-- Settles O51: memory lists nothing, and no fault is pending. -/
theorem resetMeetsTheInvariant : Obligations.ResetMeetsTheInvariant := by
  rw [Obligations.ResetMeetsTheInvariant, State.inv_iff]
  exact ⟨rfl, rfl, by decide, by decide⟩

end Sys2Proof.Machine
end
